-- ==== Sys2Proof/Word.lean ====
section
/-! DEFINITION. The three data types of the block (spec/10_state.md R22): Bit, Sample, Symbol; and an item of a
stream, which is a Bit or a Symbol (spec/20_memory.md R44). -/

namespace Sys2Proof

/-- R22: a `Bit` is 0 or 1; `true` is 1, `false` is 0, and `!b` is the spec's `¬b` (R7). -/
abbrev Bit := Bool

/-- R8, R22: a symbol is a pair `(I, Q)` of samples, in-phase and quadrature. A `Sample` is a signed integer, here
an `Int`; that it lies in the range of `W` bits is checked by `sampleInRange` (WellFormed.lean), since `W` is a
parameter of the instance (log 9). -/
structure Symbol where
  i : Int
  q : Int
deriving DecidableEq, Repr

/-- R44: "A model types the item as a sum of `Bit` and `Symbol`". -/
inductive Item where
  | bit (b : Bit)
  | symbol (p : Symbol)
deriving DecidableEq, Repr

end Sys2Proof
end

