-- ==== Sys2Proof/Config.lean ====
section
/-! DEFINITION. What is fixed when a block is built (spec/00_scope.md R6): the sample format `W`, `F`; and the free
values of the model (logs 4, 5). -/

namespace Sys2Proof

/-- R6: `W >= 3` and `1 <= F <= W-2`. -/
def formatLegal (w f : Nat) : Bool :=
  decide (3 ≤ w) && decide (1 ≤ f) && decide (f + 2 ≤ w)

/-- R6: the OPEN parameters of an instance, `w` bits a sample of which `f` are fraction bits. Only legal pairs
are formats. -/
structure Format where
  w : Nat
  f : Nat
  legal : formatLegal w f = true
deriving DecidableEq, Repr

/-- R6: the defaults, `W = 16` and `F = 14`. -/
def Format.standard : Format := ⟨16, 14, rfl⟩

/-- The value `OPL` holds after a RESET event, which R181 leaves unspecified: a free value, one for each reset
(log 4). It has no body, so no proof can know it. -/
opaque Config.freeOp : Nat → BitVec 3

/-- The value `HOLD` holds after a RESET event, which R181 leaves unspecified: a free value, one for each reset
(log 4). -/
opaque Config.freeBit : Nat → Bit

end Sys2Proof
end

