-- ==== Sys2Proof/Syntax.lean ====
section
/-! DEFINITION. The commands of the block: one constructor per row of spec/opcode_table.json
(spec/30_encoding.md R62, R63). A command has no operand; its data is the frame that follows it. -/

namespace Sys2Proof

/-- The six operations and the reserved pair. -/
inductive Instr where
  /-- `MENC`, Manchester encode (R80). -/
  | menc
  /-- `MDEC`, Manchester decode (R81). -/
  | mdec
  /-- `MAPB`, map bits to BPSK symbols (R90). -/
  | mapb
  /-- `MAPQ`, map bit pairs to QPSK symbols (R91). -/
  | mapq
  /-- `DETB`, detect BPSK symbols (R100). -/
  | detb
  /-- `DETQ`, detect QPSK symbols (R101). -/
  | detq
  /-- `RESERVED`, the codes `11v` (R63): a sink frame. `v` is the free bit of the row. -/
  | reserved (v : Bit)
deriving DecidableEq, Repr

end Sys2Proof
end

