-- ==== Sys2Proof/WellFormed.lean ====
section
/-! DEFINITION. What is a legal value, item and frame: the range of a sample (spec/10_state.md R22) and the type
of item each operation takes (spec/20_memory.md R43, R44). Every term of `Instr` is a legal command (R61); which
event sequences are well-formed is in Safety.lean. -/

namespace Sys2Proof

/-- R22: `-2^(W-1) <= s <= 2^(W-1)-1`. -/
def sampleInRange (w : Nat) (s : Int) : Bool :=
  decide (-((2 ^ (w - 1) : Nat) : Int) ≤ s) && decide (s < ((2 ^ (w - 1) : Nat) : Int))

/-- R22: both components of a symbol are samples of the instance. -/
def Symbol.wf (fmt : Format) (p : Symbol) : Bool :=
  sampleInRange fmt.w p.i && sampleInRange fmt.w p.q

/-- R44: an item the input port can carry: a bit, or a symbol of the instance's format. -/
def Item.wf (fmt : Format) : Item → Bool
  | .bit _ => true
  | .symbol p => p.wf fmt

/-- R44: the type of item each operation takes. A sink frame takes either. -/
def Instr.accepts (fmt : Format) : Instr → Item → Bool
  | .menc, .bit _ => true
  | .mdec, .bit _ => true
  | .mapb, .bit _ => true
  | .mapq, .bit _ => true
  | .detb, .symbol p => p.wf fmt
  | .detq, .symbol p => p.wf fmt
  | .reserved _, v => v.wf fmt
  | .menc, .symbol _ => false
  | .mdec, .symbol _ => false
  | .mapb, .symbol _ => false
  | .mapq, .symbol _ => false
  | .detb, .bit _ => false
  | .detq, .bit _ => false

/-- R43: every item of the frame is of the type the operation takes. The empty frame is legal for each (D18). -/
def Instr.acceptsFrame (fmt : Format) (i : Instr) (x : List Item) : Bool :=
  x.all (i.accepts fmt)

end Sys2Proof
end

