-- ==== Sys2Proof/Decode.lean ====
section
/-! DEFINITION. The command word (spec/30_encoding.md R60 to R65, R76): its fields, the decoder, total on the eight
codes, and the encoder. The framing of a command in bytes is the model's own (log 10): the block sees three wires. -/

namespace Sys2Proof

/-- R60: `UNIT`, bits [2:1]. -/
def unitField (op : BitVec 3) : BitVec 2 := op.extractLsb' 1 2

/-- R60: `VAR`, bit [0]. -/
def varField (op : BitVec 3) : Bit := op.getLsbD 0

/-- R61, R62: decoding is total. `UNIT` 0b00 is the Manchester unit, 0b01 the mapper, 0b10 the detector, 0b11
reserved; `VAR` chooses encode or decode, BPSK or QPSK. -/
def decode (op : BitVec 3) : Instr :=
  if unitField op = 0b00#2 then
    (if varField op then .mdec else .menc)
  else if unitField op = 0b01#2 then
    (if varField op then .mapq else .mapb)
  else if unitField op = 0b10#2 then
    (if varField op then .detq else .detb)
  else .reserved (varField op)

/-- R62, R63: the code of each command. -/
def encode : Instr → BitVec 3
  | .menc => 0b000#3
  | .mdec => 0b001#3
  | .mapb => 0b010#3
  | .mapq => 0b011#3
  | .detb => 0b100#3
  | .detq => 0b101#3
  | .reserved false => 0b110#3
  | .reserved true => 0b111#3

/-- Why a list of bytes holds no command (log 10). -/
inductive DecodeError where
  /-- There is no byte. -/
  | noByte
  /-- The byte has a bit above bit 2 set: a command is 3 bits (R60, R65). -/
  | widerThanCommand
deriving DecidableEq, Repr

/-- The command in bits [2:0] of the first byte, and the bytes after it (log 10). -/
def decodeBytes : List (BitVec 8) → Except DecodeError (Instr × List (BitVec 8))
  | [] => .error .noByte
  | b :: rest =>
    if b.toNat < 8 then .ok (decode (b.setWidth 3), rest) else .error .widerThanCommand

/-- The one byte that holds a command (log 10). -/
def encodeBytes (i : Instr) : List (BitVec 8) := [(encode i).setWidth 8]

/-- The bytes of a word of `nbits` bits numbered as the opcode table numbers them: bit 0 is bit 0 of byte 0. -/
def tableBytes (nbits w : Nat) : List (BitVec 8) :=
  (List.range ((nbits + 7) / 8)).map fun k => BitVec.ofNat 8 (w / 2 ^ (8 * k))

/-- What the decoder reads from a word of the opcode table: a command alone, with no byte after it. -/
def decodeTableWord (nbits w : Nat) : Option Instr :=
  match decodeBytes (tableBytes nbits w) with
  | .ok (i, []) => some i
  | .ok (_, _ :: _) => none
  | .error _ => none

end Sys2Proof
end

