-- ==== Sys2Proof/Machine/State.lean ====
section
/-! DEFINITION. The state of the block (spec/10_state.md R23 to R26, R33), the events that drive it
(spec/20_memory.md R42), what it delivers (R41, R45; spec/30_encoding.md R71), and the reasons a step can stop. -/

namespace Sys2Proof.Machine

/-- R42: what the host presents, one event a step. -/
inductive Event where
  /-- `START(op)`: open a frame for the operation of code `op`. -/
  | start (op : BitVec 3)
  /-- `ITEM(v)`: the next item of the input stream. -/
  | item (v : Item)
  /-- `END`: the input sequence is complete. -/
  | endFrame
  /-- `RESET` (R180). -/
  | reset
deriving DecidableEq, Repr

/-- R150: the two faults of the block, each a result of a frame; neither stops the machine. -/
inductive FrameFault where
  | invalidBitLength
  | illegalOp
deriving DecidableEq, Repr

/-- R71: what the status port delivers with the END step. "A model's status type has three values" (U12). -/
inductive Status where
  | ok
  | invalidBitLength
  | illegalOp
deriving DecidableEq, Repr

/-- What the host has received of one frame: the items emitted and the status, or no status where RESET cut the
frame short (R155, R182; log 7). -/
structure Report where
  items : List Item
  status : Option Status
deriving DecidableEq, Repr

/-- R153: the meaning of a whole frame, an output frame or a fault, never both. -/
inductive FrameResult where
  | ok (y : List Item)
  | fault (f : FrameFault)
deriving DecidableEq, Repr

/-- A step that stops with a fault: there is none. The block's faults are statuses of a step that goes on
(R150, R156, R162; log 12), so nobody raises one. -/
inductive Fault where
deriving DecidableEq, Repr

/-- Why there is no step. Each is safe: nothing can be proved about an event that R43 does not allow. -/
inductive Refusal where
  /-- Raised by `exec` for an instruction without a meaning; no instruction is left without one. Safe. -/
  | notModelled (mnemonic : String)
  /-- Raised when the host has presented nothing: `Step` is defined on an event (R46; log 8). Safe. -/
  | noEvent
  /-- Raised by START while `BUSY = 1` (U7). Safe. -/
  | startWhileBusy
  /-- Raised by ITEM while `BUSY = 0` (U8). Safe. -/
  | itemWhileIdle
  /-- Raised by END while `BUSY = 0` (U9). Safe. -/
  | endWhileIdle
  /-- Raised by an ITEM that is not of the type the latched operation takes, or not an item of the instance's
  format (U10, R22, R44; log 9). Safe. -/
  | itemWrongType
deriving DecidableEq, Repr

/-- The state of one block and, beside it, both ends of its ports. -/
structure State where
  /-- `W` and `F` of the instance: constants that no step writes (R6, R33; log 1). -/
  fmt : Format
  /-- `BUSY` (R23). -/
  busy : Bit
  /-- `OPL` (R24). -/
  opl : BitVec 3
  /-- `PHASE` (R25). -/
  phase : Bit
  /-- `HOLD` (R26). -/
  hold : Bit
  /-- The events the host will present, the next one first (R42; log 6). -/
  pending : List Event
  /-- The output stream of the current frame, the first item first (R45). -/
  out : List Item
  /-- The frames that have ended, the first one first (R27: "the host must record it"; log 7). -/
  reports : List Report
  /-- How many free values have been drawn (log 5). -/
  free : Nat
deriving DecidableEq, Repr

/-- R33: the state after reset. `BUSY` and `PHASE` are 0, the output stream is empty. `OPL` and `HOLD` are
unspecified: 0 is the model's choice (DESIGN CHOICE, logs 2, 3); the empty queue and the counter are the model's
(logs 5, 6). -/
def State.reset : State where
  fmt := Format.standard
  busy := false
  opl := 0b000#3
  phase := false
  hold := false
  pending := []
  out := []
  reports := []
  free := 0

end Sys2Proof.Machine
end

