-- ==== Sys2Proof/Machine/Operands.lean ====
section
/-! DEFINITION. The operands of the block: reading the item an ITEM event carries (`take`, spec/20_memory.md R44),
the constants ONE and AQ (spec/41_mapper.md R92, R93), the sign of a bit and the sign test of a sample
(spec/00_scope.md R7), the choice of an amplitude by a bit (spec/30_encoding.md R69). -/

namespace Sys2Proof.Machine

/-- R44: `take()` of an operation on bits; none where the item is no bit. -/
def takeBit : Item → Option Bit
  | .bit b => some b
  | .symbol _ => none

/-- R44: `take()` of an operation on symbols; none where the item is no symbol of the format. -/
def takeSymbol (fmt : Format) : Item → Option Symbol
  | .bit _ => none
  | .symbol p => if p.wf fmt then some p else none

/-- R44: `take()` of a sink frame: an item of either type. -/
def takeAny (fmt : Format) (v : Item) : Option Item :=
  if v.wf fmt then some v else none

/-- R7: `sgn(b)` is +1 for 1 and -1 for 0. -/
def sgn (b : Bit) : Int := if b then 1 else -1

/-- R7: `ge0(s)` is 1 when `s >= 0` and 0 when `s < 0`. -/
def ge0 (s : Int) : Bit := decide (0 ≤ s)

/-- R92: `ONE = 2^F`. -/
def one (fmt : Format) : Int := ((2 ^ fmt.f : Nat) : Int)

/-- The greatest `a` with `(2a-1)^2 < n`, one binary digit a step, from `a` on and `k` digits down. -/
def aqDigits (n : Nat) : Nat → Nat → Nat
  | 0, a => a
  | k + 1, a => aqDigits n k (if (2 * (a + 2 ^ k) - 1) ^ 2 < n then a + 2 ^ k else a)

/-- R93: the integer nearest to `2^F / sqrt 2`: the `a >= 1` with `(2a-1)^2 < 2^(2F+1) < (2a+1)^2` (log 13). -/
def aqNat (f : Nat) : Nat := aqDigits (2 ^ (2 * f + 1)) f 0

/-- R93: `AQ` of the instance. -/
def aq (fmt : Format) : Int := (aqNat fmt.f : Int)

/-- R69: a bit chooses between `+A` and `-A`. -/
def amp (c : Bit) (a : Int) : Int := if c then a else -a

/-- R7, R22: the `W`-bit two's-complement word of a sample. -/
def sampleWord (w : Nat) (s : Int) : BitVec w := BitVec.ofInt w s

/-- R7: a word of `W` bits read as a two's-complement integer. -/
def wordSample {w : Nat} (v : BitVec w) : Int := v.toInt

end Sys2Proof.Machine
end

