-- ==== Sys2Proof/Machine/Ops.lean ====
section
/-! DEFINITION. The operations over the state that the instructions share: writing one element, opening and closing
a frame, RESET, `emit` (spec/00_scope.md R9), assembling a group of two bits (spec/10_state.md R25, R26), and the
arms of the step function that every operation has in common (spec/20_memory.md R46). -/

namespace Sys2Proof.Machine

/-- The result of a step of this machine. -/
abbrev Result := Host.Outcome State Fault Refusal

/-- The host's queue after an event has been taken from it. -/
def State.setPending (es : List Event) (s : State) : State := { s with pending := es }

/-- `PHASE <- b`. -/
def State.setPhase (b : Bit) (s : State) : State := { s with phase := b }

/-- `HOLD <- b`. -/
def State.setHold (b : Bit) (s : State) : State := { s with hold := b }

/-- R9, R45: `emit(y0) ; emit(y1) ; ...`, appended in the order written. -/
def State.emit (ys : List Item) (s : State) : State := { s with out := s.out ++ ys }

/-- R46, START: `BUSY <- 1 ; OPL <- op ; PHASE <- 0`, `HOLD` unchanged. The frame's output stream is a new one
(log 17). -/
def State.openFrame (op : BitVec 3) (s : State) : State :=
  { s with busy := true, opl := op, phase := false, out := [] }

/-- R46, END: the status is delivered, `BUSY <- 0 ; PHASE <- 0`, `OPL` and `HOLD` unchanged. This is also all that a
fault does (R162): nothing is saved, no control is transferred. -/
def State.closeFrame (st : Status) (s : State) : State :=
  { s with busy := false, phase := false, out := [], reports := s.reports ++ [⟨s.out, some st⟩] }

/-- R181, RESET: `BUSY <- 0 ; PHASE <- 0`; `OPL` and `HOLD` take unspecified values (log 4); no status is delivered.
A frame that was open is recorded without a status (R182; log 7). -/
def State.resetBlock (s : State) : State :=
  { s with
    busy := false
    phase := false
    opl := Config.freeOp s.free
    hold := Config.freeBit s.free
    free := s.free + 1
    out := []
    reports := if s.busy then s.reports ++ [⟨s.out, none⟩] else s.reports }

/-- R81, R91: the ITEM step of the operations that consume two bits a group: at `PHASE = 0` the bit is held, at
`PHASE = 1` the group is complete and `output first second` is emitted. -/
def State.pairStep (output : Bit → Bit → List Item) (b : Bit) (s : State) : State :=
  if s.phase then (s.emit (output s.hold b)).setPhase false
  else (s.setHold b).setPhase true

/-- What happens at an event that no operation serves: RESET, and the refusals of R43 (U7, U8, U9; log 8). -/
def unserved (s : State) : Result :=
  match s.pending with
  | [] => .refused .noEvent
  | .reset :: rest => .next (s.setPending rest).resetBlock
  | .start _ :: _ => .refused .startWhileBusy
  | .item _ :: _ => .refused .itemWhileIdle
  | .endFrame :: _ => .refused .endWhileIdle

/-- R46: one event of a frame of an operation whose ITEM step is `itemStep` (none: the item has not the type the
operation takes, U10) and whose status at END is `status`. -/
def runEvent (itemStep : Item → State → Option State) (status : State → Status) (s : State) : Result :=
  match s.pending with
  | .start op :: rest => if s.busy then unserved s else .next ((s.setPending rest).openFrame op)
  | .item v :: rest =>
    if s.busy then
      match itemStep v (s.setPending rest) with
      | some t => .next t
      | none => .refused .itemWrongType
    else unserved s
  | .endFrame :: rest => if s.busy then .next ((s.setPending rest).closeFrame (status s)) else unserved s
  | .reset :: _ => unserved s
  | [] => unserved s

/-- The operation that serves the next event (R24, R46): of START, the one its code selects; of ITEM and END, the
latched one; none for RESET and for an event that R43 does not allow. `OPL` is not read while `BUSY = 0` (R24). -/
def State.selected (s : State) : Option Instr :=
  match s.pending with
  | .start op :: _ => if s.busy then none else some (decode op)
  | .item _ :: _ => if s.busy then some (decode s.opl) else none
  | .endFrame :: _ => if s.busy then some (decode s.opl) else none
  | .reset :: _ => none
  | [] => none

/-- The block idle, with the START event of command `i` as the next event. -/
def State.presentCommand (i : Instr) (s : State) : State :=
  { s with busy := false, phase := false, pending := .start (encode i) :: s.pending }

end Sys2Proof.Machine
end

