-- ==== Sys2Proof/Machine/Flags.lean ====
section
/-! DEFINITION. The block has no flags (spec/10_state.md R28). Its one result code is STATUS: the value END delivers
(spec/20_memory.md R46), its 2-bit code (spec/30_encoding.md R71) and the fault it stands for
(spec/60_exceptions.md R150). -/

namespace Sys2Proof.Machine

/-- R46: the status of an operation on single items is always OK. -/
def statusSingle (_ : State) : Status := .ok

/-- R46, R151: the status of an operation on pairs: a bit without a partner is `InvalidBitLength`. -/
def statusPaired (s : State) : Status := if s.phase then .invalidBitLength else .ok

/-- R46, R152: the status of a sink frame. -/
def statusReserved (_ : State) : Status := .illegalOp

/-- R71: the 2-bit code of a status. -/
def Status.code : Status → BitVec 2
  | .ok => 0b00#2
  | .invalidBitLength => 0b01#2
  | .illegalOp => 0b10#2

/-- R150: the fault a status reports. -/
def Status.fault : Status → Option FrameFault
  | .ok => none
  | .invalidBitLength => some .invalidBitLength
  | .illegalOp => some .illegalOp

/-- R153, R154: what the host keeps of a frame: its items where the status is OK, the fault where it is not,
nothing where RESET cut the frame short (R182). -/
def Report.result (r : Report) : Option FrameResult :=
  match r.status with
  | none => none
  | some st =>
    match st.fault with
    | none => some (.ok r.items)
    | some f => some (.fault f)

end Sys2Proof.Machine
end

