-- ==== Sys2Proof/Machine/Detector.lean ====
section
/-! DEFINITION. The comparator, `DETB` and `DETQ` (spec/42_detector.md R100, R101): the decision, the meaning of a
whole frame, and the meaning of one event. One sample a symbol, no filter (R107). -/

namespace Sys2Proof.Machine

/-- R100: the BPSK decision; `Q` is not read. -/
def bpskDecision (p : Symbol) : Bit := ge0 p.i

/-- R101: the QPSK decisions, that of `I` first. -/
def qpskDecision (p : Symbol) : List Bit := [ge0 p.i, ge0 p.q]

/-- R100, frame level. -/
def detbFrame (r : List Symbol) : List Bit := r.map bpskDecision

/-- R101, frame level. -/
def detqFrame : List Symbol → List Bit
  | [] => []
  | p :: r => qpskDecision p ++ detqFrame r

/-- R100, the ITEM step of `DETB`. -/
def detbItem (v : Item) (s : State) : Option State :=
  (takeSymbol s.fmt v).map fun p => s.emit [.bit (bpskDecision p)]

/-- R101, the ITEM step of `DETQ`. -/
def detqItem (v : Item) (s : State) : Option State :=
  (takeSymbol s.fmt v).map fun p => s.emit ((qpskDecision p).map .bit)

/-- `DETB` (R46, R100). -/
def execDetb (s : State) : Result := runEvent detbItem statusSingle s

/-- `DETQ` (R46, R101). -/
def execDetq (s : State) : Result := runEvent detqItem statusSingle s

end Sys2Proof.Machine
end

