-- ==== Sys2Proof/Machine/Manchester.lean ====
section
/-! DEFINITION. The Manchester unit, `MENC` and `MDEC` (spec/40_manchester.md R80, R81): the code, the meaning of a
whole frame, and the meaning of one event. -/

namespace Sys2Proof.Machine

/-- R66: the code word of a data bit, `(b, ¬b)`, first sub-bit first. -/
def codeWord (b : Bit) : List Bit := [b, !b]

/-- R81: `dec(a, b) = a`, the first sub-bit decides, for clean and corrupted groups alike. -/
def decodeGroup (first _second : Bit) : Bit := first

/-- R80, frame level. -/
def mencFrame : List Bit → List Bit
  | [] => []
  | b :: x => codeWord b ++ mencFrame x

/-- R81, frame level; none is `Fault(InvalidBitLength)`. -/
def mdecFrame : List Bit → Option (List Bit)
  | [] => some []
  | [_] => none
  | a :: b :: c => (mdecFrame c).map (decodeGroup a b :: ·)

/-- R80, the ITEM step of `MENC`. -/
def mencItem (v : Item) (s : State) : Option State :=
  (takeBit v).map fun b => s.emit ((codeWord b).map .bit)

/-- R81, the ITEM step of `MDEC`. -/
def mdecItem (v : Item) (s : State) : Option State :=
  (takeBit v).map fun b => s.pairStep (fun first second => [.bit (decodeGroup first second)]) b

/-- `MENC` (R46, R80). -/
def execMenc (s : State) : Result := runEvent mencItem statusSingle s

/-- `MDEC` (R46, R81). -/
def execMdec (s : State) : Result := runEvent mdecItem statusPaired s

end Sys2Proof.Machine
end

