-- ==== Sys2Proof/Machine/Mapper.lean ====
section
/-! DEFINITION. The symbol mapper, `MAPB` and `MAPQ` (spec/41_mapper.md R90, R91): the constellations
(spec/30_encoding.md R67, R68), the meaning of a whole frame, and the meaning of one event. -/

namespace Sys2Proof.Machine

/-- R67: the BPSK point of a bit, `(sgn(c) * ONE, 0)`. -/
def bpskPoint (fmt : Format) (c : Bit) : Symbol := ⟨amp c (one fmt), 0⟩

/-- R68: the QPSK point of a pair, `(sgn(c0) * AQ, sgn(c1) * AQ)`. -/
def qpskPoint (fmt : Format) (c0 c1 : Bit) : Symbol := ⟨amp c0 (aq fmt), amp c1 (aq fmt)⟩

/-- R90, frame level. -/
def mapbFrame (fmt : Format) (c : List Bit) : List Symbol := c.map (bpskPoint fmt)

/-- R91, frame level; none is `Fault(InvalidBitLength)`. -/
def mapqFrame (fmt : Format) : List Bit → Option (List Symbol)
  | [] => some []
  | [_] => none
  | c0 :: c1 :: c => (mapqFrame fmt c).map (qpskPoint fmt c0 c1 :: ·)

/-- R90, the ITEM step of `MAPB`. -/
def mapbItem (v : Item) (s : State) : Option State :=
  (takeBit v).map fun b => s.emit [.symbol (bpskPoint s.fmt b)]

/-- R91, the ITEM step of `MAPQ`. -/
def mapqItem (v : Item) (s : State) : Option State :=
  (takeBit v).map fun b => s.pairStep (fun c0 c1 => [.symbol (qpskPoint s.fmt c0 c1)]) b

/-- `MAPB` (R46, R90). -/
def execMapb (s : State) : Result := runEvent mapbItem statusSingle s

/-- `MAPQ` (R46, R91). -/
def execMapq (s : State) : Result := runEvent mapqItem statusPaired s

end Sys2Proof.Machine
end

