-- ==== Sys2Proof/Machine/Reserved.lean ====
section
/-! DEFINITION. The reserved codes 0b110 and 0b111 (spec/30_encoding.md R63): a sink frame. -/

namespace Sys2Proof.Machine

/-- R46, R63: the item is consumed; nothing is emitted, no state changes. -/
def reservedItem (v : Item) (s : State) : Option State := (takeAny s.fmt v).map fun _ => s

/-- The reserved commands (R46, R63, R152). -/
def execReserved (s : State) : Result := runEvent reservedItem statusReserved s

end Sys2Proof.Machine
end

