-- ==== Sys2Proof/Machine/Dispatch.lean ====
section
/-! DEFINITION. One arm per command: the case distinction on OPL of the step function (spec/20_memory.md R46). -/

namespace Sys2Proof.Machine

def exec (i : Instr) (s : State) : Host.Outcome State Fault Refusal :=
  match i with
  | .menc => Sys2Proof.Machine.execMenc s
  | .mdec => Sys2Proof.Machine.execMdec s
  | .mapb => Sys2Proof.Machine.execMapb s
  | .mapq => Sys2Proof.Machine.execMapq s
  | .detb => Sys2Proof.Machine.execDetb s
  | .detq => Sys2Proof.Machine.execDetq s
  | .reserved _ => Sys2Proof.Machine.execReserved s

end Sys2Proof.Machine
end

