-- ==== Sys2Proof/Machine/Step.lean ====
section
/-! DEFINITION. One step: one event of the host (spec/00_scope.md R12, spec/20_memory.md R46). -/

namespace Sys2Proof.Machine

/-- R46: the event is served by the operation it selects; RESET, and an event that R43 does not allow, by none. -/
def step (s : State) : Host.Outcome State Fault Refusal :=
  match s.selected with
  | some i => exec i s
  | none => unserved s

/-- The command of a word of the opcode table as the next event, the block idle: START is allowed only then (R43).
A word that is no command is not presented (log 6, log 10). -/
def State.withFetchWord (s : State) (nbits w : Nat) : State :=
  match decodeTableWord nbits w with
  | some i => s.presentCommand i
  | none => s

end Sys2Proof.Machine
end

