-- ==== Sys2Proof/Machine/Frames.lean ====
section
/-! DEFINITION. `Exec(op, x)`, the normative meaning of an operation on a whole frame (spec/00_scope.md R9,
spec/20_memory.md R47, spec/60_exceptions.md R153), and the chains of two frames that the pseudo-operations name
(spec/30_encoding.md R73, spec/43_chains.md R110 to R113). -/

namespace Sys2Proof.Machine

/-- A frame read as a BitStream; none where an item is no bit (R43, R44). -/
def bitsOf : List Item → Option (List Bit)
  | [] => some []
  | v :: x =>
    match takeBit v, bitsOf x with
    | some b, some bs => some (b :: bs)
    | _, _ => none

/-- A frame read as a SymbolStream; none where an item is no symbol of the format (R43, R44). -/
def symbolsOf (fmt : Format) : List Item → Option (List Symbol)
  | [] => some []
  | v :: x =>
    match takeSymbol fmt v, symbolsOf fmt x with
    | some p, some ps => some (p :: ps)
    | _, _ => none

/-- A BitStream as a frame of items. -/
def bitFrame (b : List Bit) : List Item := b.map .bit

/-- A SymbolStream as a frame of items. -/
def symbolFrame (p : List Symbol) : List Item := p.map .symbol

/-- `InvalidBitLength` where an operation on pairs has no result (R151). -/
def pairedResult : Option (List Item) → FrameResult
  | some y => .ok y
  | none => .fault .invalidBitLength

/-- `Exec(op, x)`; none where the frame is not of the type the operation takes, where R43 gives no meaning
(log 18). -/
def execFrame (fmt : Format) (i : Instr) (x : List Item) : Option FrameResult :=
  match i with
  | .menc => (bitsOf x).map fun b => .ok (bitFrame (mencFrame b))
  | .mdec => (bitsOf x).map fun c => pairedResult ((mdecFrame c).map bitFrame)
  | .mapb => (bitsOf x).map fun c => .ok (symbolFrame (mapbFrame fmt c))
  | .mapq => (bitsOf x).map fun c => pairedResult ((mapqFrame fmt c).map symbolFrame)
  | .detb => (symbolsOf fmt x).map fun r => .ok (bitFrame (detbFrame r))
  | .detq => (symbolsOf fmt x).map fun r => .ok (bitFrame (detqFrame r))
  | .reserved _ => if x.all (Item.wf fmt) then some (.fault .illegalOp) else none

/-- R73, 43_chains.md: the frame of `first`, then the frame of `second` on its output; a fault of the first frame is
the fault of the chain and the second is not run. -/
def execChain (fmt : Format) (first second : Instr) (x : List Item) : Option FrameResult :=
  match execFrame fmt first x with
  | some (.ok y) => execFrame fmt second y
  | some (.fault f) => some (.fault f)
  | none => none

/-- R110: `TXB x` is `MENC x -> c` then `MAPB c -> s`. -/
def execTxb (fmt : Format) (x : List Item) : Option FrameResult := execChain fmt .menc .mapb x

/-- R111: `TXQ x` is `MENC x -> c` then `MAPQ c -> s`. -/
def execTxq (fmt : Format) (x : List Item) : Option FrameResult := execChain fmt .menc .mapq x

/-- R112: `RXB r` is `DETB r -> d` then `MDEC d -> y`. -/
def execRxb (fmt : Format) (r : List Item) : Option FrameResult := execChain fmt .detb .mdec r

/-- R113: `RXQ r` is `DETQ r -> d` then `MDEC d -> y`. -/
def execRxq (fmt : Format) (r : List Item) : Option FrameResult := execChain fmt .detq .mdec r

/-- R43: the events of one frame. -/
def frameEvents (op : BitVec 3) (x : List Item) : List Event :=
  .start op :: (x.map .item ++ [.endFrame])

end Sys2Proof.Machine
end

