-- ==== Sys2Proof/Machine/Packing.lean ====
section
/-! DEFINITION. The packed views of spec/20_memory.md R49 and spec/30_encoding.md R70, for writing frames down. No
operation's result depends on them. -/

namespace Sys2Proof.Machine

/-- A bit as a one-bit word. -/
def bitWord (b : Bit) : BitVec 1 := BitVec.ofBool b

/-- R49: a Manchester group is `first ++ second`. -/
def packGroup (first second : Bit) : BitVec 2 := bitWord first ++ bitWord second

/-- R49, R70: a symbol is `I ++ Q`, `I` in the high half. -/
def packSymbol (w : Nat) (p : Symbol) : BitVec (w + w) := sampleWord w p.i ++ sampleWord w p.q

/-- The symbol a packed word stands for. -/
def unpackSymbol (w : Nat) (v : BitVec (w + w)) : Symbol :=
  ⟨wordSample (v.extractLsb' w w), wordSample (v.extractLsb' 0 w)⟩

/-- R70: a sample in a wider host word is sign-extended. -/
def widenSample {w : Nat} (n : Nat) (v : BitVec w) : BitVec n := v.signExtend n

/-- R70: a bit in a wider host word is zero-extended. -/
def widenBit (n : Nat) (b : Bit) : BitVec n := (bitWord b).setWidth n

/-- R49: up to eight bits in a byte, the first bit in time in bit 7, padded with zeros on the right. -/
def packByte (x : List Bit) : BitVec 8 :=
  (List.range 8).foldl (fun acc k => acc * 2 + (if x.getD k false then 1 else 0)) 0

/-- `packBits` with the number of bytes given. -/
def packBytes : Nat → List Bit → List (BitVec 8)
  | 0, _ => []
  | n + 1, x => packByte (x.take 8) :: packBytes n (x.drop 8)

/-- R49: a BitStream packed into bytes. -/
def packBits (x : List Bit) : List (BitVec 8) := packBytes ((x.length + 7) / 8) x

/-- The first `n` bits of packed bytes, read back in time order. -/
def unpackBits (n : Nat) (bytes : List (BitVec 8)) : List Bit :=
  (List.range n).map fun k => (bytes.getD (k / 8) 0).getLsbD (7 - k % 8)

end Sys2Proof.Machine
end

