-- ==== Sys2Proof/Safety.lean ====
section
/-! DEFINITION. The terms claims are stated in: the invariants of the state (spec/10_state.md R32), a run, what has
left the block on its ports, and the well-formed event sequence (spec/20_memory.md R43). -/

namespace Sys2Proof.Machine

/-- R32.1, R32.2, and that the record of the open frame's stream is empty while none is open (log 17). -/
structure State.Inv (s : State) : Prop where
  idle_phase : s.busy = false → s.phase = false
  phase_frame : s.phase = true → s.busy = true ∧ (s.opl = 0b001#3 ∨ s.opl = 0b011#3)
  idle_out : s.busy = false → s.out = []

/-- `k` steps (the host's `Core.run` on this machine, see Laws/Step.lean). -/
def runSteps : Nat → State → Result
  | 0, s => .next s
  | k + 1, s =>
    match step s with
    | .next t => runSteps k t
    | .fault f => .fault f
    | .refused r => .refused r

/-- Every item the block has emitted, the first one first: the trace of the output port. -/
def State.emitted (s : State) : List Item := s.reports.flatMap Report.items ++ s.out

/-- Every status the block has delivered, the first one first: the trace of the status port. -/
def State.statuses (s : State) : List Status := s.reports.filterMap Report.status

/-- R43: a sequence of events in which each is allowed, `open?` being the operation of the frame that is open now,
if one is. A sequence may stop inside a frame: the host has not presented the rest yet. -/
def eventsWf (fmt : Format) : Option Instr → List Event → Bool
  | _, [] => true
  | none, .start op :: es => eventsWf fmt (some (decode op)) es
  | some i, .item v :: es => i.accepts fmt v && eventsWf fmt (some i) es
  | some _, .endFrame :: es => eventsWf fmt none es
  | _, .reset :: es => eventsWf fmt none es
  | some _, .start _ :: _ => false
  | none, .item _ :: _ => false
  | none, .endFrame :: _ => false

/-- The operation of the open frame. -/
def State.openOp (s : State) : Option Instr := if s.busy then some (decode s.opl) else none

/-- What the host will present is well-formed from this state on. -/
def State.Served (s : State) : Prop := eventsWf s.fmt s.openOp s.pending = true

/-- The number of items that make a group (R44, R118): 2 for `MDEC` and `MAPQ`, 1 for the other four operations. For
a reserved code R44 says "none"; the 1 there is the model's filler (DESIGN CHOICE, log 19). -/
def groupSize : Instr → Nat
  | .mdec => 2
  | .mapq => 2
  | .menc => 1
  | .mapb => 1
  | .detb => 1
  | .detq => 1
  | .reserved _ => 1

/-- R46, END, in the rule's own words: the status of a frame of code `opl` that ends at `PHASE = phase`. -/
def statusAtEnd (opl : BitVec 3) (phase : Bit) : Status :=
  if opl = 0b110#3 ∨ opl = 0b111#3 then .illegalOp
  else if (opl = 0b001#3 ∨ opl = 0b011#3) ∧ phase = true then .invalidBitLength
  else .ok

/-- R105: what a channel that adds `n` delivers of a sent symbol `p`. -/
def addNoise (p n : Symbol) : Symbol := ⟨p.i + n.i, p.q + n.q⟩

/-- R102: the squared distance of two symbols, in unbounded integers. -/
def sqDistance (p r : Symbol) : Int := (p.i - r.i) ^ 2 + (p.q - r.q) ^ 2

end Sys2Proof.Machine
end

