-- ==== Sys2Proof/Certificates/Slice0/Obligations.lean ====
section
/-! DEFINITION. The statements for the provers, one definition each. Logs are notes/assumptions/<n>.md. -/

open Sys2Proof Sys2Proof.Machine

/-- The decoder is the opcode table of R76, on all eight codes, and decodes the words R62 writes out. Rests on:
R61, R76. -/
def Obligations.DecodeAgreesWithOpcodeTable : Prop :=
  (∀ op : BitVec 3,
    (op &&& 0b111#3 = 0b000#3 ↔ decode op = .menc) ∧
    (op &&& 0b111#3 = 0b001#3 ↔ decode op = .mdec) ∧
    (op &&& 0b111#3 = 0b010#3 ↔ decode op = .mapb) ∧
    (op &&& 0b111#3 = 0b011#3 ↔ decode op = .mapq) ∧
    (op &&& 0b111#3 = 0b100#3 ↔ decode op = .detb) ∧
    (op &&& 0b111#3 = 0b101#3 ↔ decode op = .detq) ∧
    (op &&& 0b110#3 = 0b110#3 ↔ ∃ v, decode op = .reserved v)) ∧
  decode 0b000#3 = .menc ∧ decode 0b001#3 = .mdec ∧ decode 0b010#3 = .mapb ∧ decode 0b011#3 = .mapq ∧
  decode 0b100#3 = .detb ∧ decode 0b101#3 = .detq ∧
  decode 0b110#3 = .reserved false ∧ decode 0b111#3 = .reserved true

/-- Decoding and encoding are inverse, on the eight codes and on the model's one-byte framing of them (log 10).
Rests on: 30_encoding.md section 1, command format, 30_encoding.md section 2, opcode map. -/
def Obligations.DecodeInvertsEncode : Prop :=
  (∀ i : Instr, decode (encode i) = i) ∧ (∀ op : BitVec 3, encode (decode op) = op) ∧
    ∀ (i : Instr) (rest : List (BitVec 8)), decodeBytes (encodeBytes i ++ rest) = .ok (i, rest)

/-- A step is the meaning of the operation that its event selects, also of a command placed by withFetchWord
(model's choice, logs 6, 10, 17). Rests on: 20_memory.md section 2, the step function (R46), 10_state.md OPL
(R24). -/
def Obligations.StepRunsSelectedOperation : Prop :=
  (∀ (s : State) (op : BitVec 3) (rest : List Event),
    s.pending = .start op :: rest → s.busy = false → step s = exec (decode op) s) ∧
  (∀ (s : State) (v : Item) (rest : List Event),
    s.pending = .item v :: rest → s.busy = true → step s = exec (decode s.opl) s) ∧
  (∀ (s : State) (rest : List Event),
    s.pending = .endFrame :: rest → s.busy = true → step s = exec (decode s.opl) s) ∧
  (∀ (s : State) (i : Instr),
    step (s.withFetchWord 8 (encode i).toNat) = exec i (s.withFetchWord 8 (encode i).toNat))

/-- START opens a frame: BUSY 1, OPL the code, PHASE 0, nothing else of the block changed. The model's own
choice in it: log 17. Rests on: 20_memory.md section 2, Step START, 10_state.md BUSY, OPL, PHASE. -/
def Obligations.StartLatchesOperation : Prop :=
  ∀ (s : State) (op : BitVec 3) (rest : List Event),
    s.busy = false → s.pending = .start op :: rest →
    step s = .next { s with busy := true, opl := op, phase := false, out := [], pending := rest } ∧
    exec (decode op) s =
      .next { s with busy := true, opl := op, phase := false, out := [], pending := rest }

/-- END of a frame of any command delivers the status of R46 and makes the block idle, OPL and HOLD unchanged.
The model's own choice in it: logs 7, 17. Rests on: 20_memory.md section 2, Step END, 60_exceptions.md section
1, faults. -/
def Obligations.EndDeliversStatus : Prop :=
  ∀ (i : Instr) (s : State) (rest : List Event),
    s.busy = true → s.pending = .endFrame :: rest →
    exec i s = .next { s with
      busy := false, phase := false, pending := rest, out := []
      reports := s.reports ++ [⟨s.out, some (statusAtEnd (encode i) s.phase)⟩] }

/-- MENC: an ITEM step emits the bit and its complement and changes nothing else. Rests on: 40_manchester.md
MENC, item-level step. -/
def Obligations.MencItemStep : Prop :=
  ∀ (s : State) (b : Bit) (rest : List Event),
    s.busy = true → s.pending = .item (.bit b) :: rest →
    exec .menc s = .next { s with pending := rest, out := s.out ++ [.bit b, .bit (!b)] }

/-- MDEC: the first bit of a group is held, the second completes it and the held bit is emitted. Rests on:
40_manchester.md MDEC, item-level step. -/
def Obligations.MdecItemStep : Prop :=
  ∀ (s : State) (b : Bit) (rest : List Event),
    s.busy = true → s.pending = .item (.bit b) :: rest →
    (s.phase = false → exec .mdec s = .next { s with pending := rest, hold := b, phase := true }) ∧
    (s.phase = true →
      exec .mdec s = .next { s with pending := rest, phase := false, out := s.out ++ [.bit s.hold] })

/-- MAPB: an ITEM step emits the BPSK point of the bit, at every sample format. Rests on: 41_mapper.md MAPB,
item-level step, 41_mapper.md Constants. -/
def Obligations.MapbItemStep : Prop :=
  ∀ (s : State) (b : Bit) (rest : List Event),
    s.busy = true → s.pending = .item (.bit b) :: rest →
    exec .mapb s = .next { s with
      pending := rest
      out := s.out ++ [.symbol ⟨if b then (2 : Int) ^ s.fmt.f else -(2 : Int) ^ s.fmt.f, 0⟩] }

/-- MAPQ: the first bit of a pair is held, the second completes it and the pair's QPSK point is emitted. Rests
on: 41_mapper.md MAPQ, item-level step. -/
def Obligations.MapqItemStep : Prop :=
  ∀ (s : State) (b : Bit) (rest : List Event),
    s.busy = true → s.pending = .item (.bit b) :: rest →
    (s.phase = false → exec .mapq s = .next { s with pending := rest, hold := b, phase := true }) ∧
    (s.phase = true → exec .mapq s = .next { s with
      pending := rest, phase := false
      out := s.out ++ [.symbol ⟨sgn s.hold * aq s.fmt, sgn b * aq s.fmt⟩] })

/-- DETB: an ITEM step emits 1 when I >= 0 and 0 when I < 0, whatever Q is. Rests on: 42_detector.md DETB, item-
level step. -/
def Obligations.DetbItemStep : Prop :=
  ∀ (s : State) (i q : Int) (rest : List Event),
    s.busy = true → s.pending = .item (.symbol ⟨i, q⟩) :: rest →
    sampleInRange s.fmt.w i = true → sampleInRange s.fmt.w q = true →
    exec .detb s = .next { s with pending := rest, out := s.out ++ [.bit (decide (0 ≤ i))] }

/-- DETQ: an ITEM step emits the decision on I and then the decision on Q. Rests on: 42_detector.md DETQ, item-
level step. -/
def Obligations.DetqItemStep : Prop :=
  ∀ (s : State) (i q : Int) (rest : List Event),
    s.busy = true → s.pending = .item (.symbol ⟨i, q⟩) :: rest →
    sampleInRange s.fmt.w i = true → sampleInRange s.fmt.w q = true →
    exec .detq s = .next { s with
      pending := rest, out := s.out ++ [.bit (decide (0 ≤ i)), .bit (decide (0 ≤ q))] }

/-- A sink frame consumes an item of either type, emits nothing and changes nothing. Rests on: 20_memory.md
section 2, Step ITEM, sink frame. -/
def Obligations.ReservedItemStep : Prop :=
  ∀ (v : Bit) (s : State) (x : Item) (rest : List Event),
    s.busy = true → s.pending = .item x :: rest → x.wf s.fmt = true →
    exec (.reserved v) s = .next { s with pending := rest }

/-- An ITEM is refused as of the wrong type exactly when the operation does not take it; for a symbol outside
the format, the model's choice (log 9). The model's own choice in it: logs 8, 9. Rests on:
93_implementation_defined.md U10, 20_memory.md section 2, input item type (R44), 10_state.md section 1, data
types (R22). -/
def Obligations.WrongItemTypeRefused : Prop :=
  ∀ (i : Instr) (s : State) (v : Item) (rest : List Event),
    s.busy = true → s.pending = .item v :: rest →
    (exec i s = .refused .itemWrongType ↔ i.accepts s.fmt v = false) ∧
    ((∃ t, exec i s = .next t) ↔ i.accepts s.fmt v = true)

/-- START while busy, ITEM or END while idle, and no event at all have no step. The model's own choice in it:
log 8. Rests on: 93_implementation_defined.md U7, U8, U9, 20_memory.md section 2, well-formed event sequence. -/
def Obligations.EventsOutOfPlaceRefused : Prop :=
  (∀ (s : State) (op : BitVec 3) (rest : List Event),
    s.busy = true → s.pending = .start op :: rest → step s = .refused .startWhileBusy) ∧
  (∀ (s : State) (v : Item) (rest : List Event),
    s.busy = false → s.pending = .item v :: rest → step s = .refused .itemWhileIdle) ∧
  (∀ (s : State) (rest : List Event),
    s.busy = false → s.pending = .endFrame :: rest → step s = .refused .endWhileIdle) ∧
  (∀ s : State, s.pending = [] → step s = .refused .noEvent)

/-- RESET is allowed in every state and leaves the block idle, with nothing emitted and no status delivered.
Rests on: R181. -/
def Obligations.ResetMakesIdle : Prop :=
  ∀ (s : State) (rest : List Event), s.pending = .reset :: rest →
    ∃ t, step s = .next t ∧ t.busy = false ∧ t.phase = false ∧ t.pending = rest ∧ t.fmt = s.fmt ∧
      t.statuses = s.statuses ∧ (s.Inv → t.emitted = s.emitted)

/-- BUSY is written by START, END and reset, and by nothing else. Rests on: R23. -/
def Obligations.BusyMarksOpenFrame : Prop :=
  State.reset.busy = false ∧
  ∀ (s t : State) (e : Event) (rest : List Event), s.pending = e :: rest → step s = .next t →
    t.busy = (match e with
      | .start _ => true
      | .item _ => s.busy
      | .endFrame => false
      | .reset => false)

/-- OPL is written by START with the event's code, and by no ITEM or END. Rests on: 10_state.md OPL,
20_memory.md section 7 (the operation is sampled once, at START). -/
def Obligations.OplWrittenOnlyByStart : Prop :=
  ∀ (s t : State) (e : Event) (rest : List Event), s.pending = e :: rest → step s = .next t →
    (match e with
      | .start op => t.opl = op
      | .item _ => t.opl = s.opl
      | .endFrame => t.opl = s.opl
      | .reset => True)

/-- PHASE toggles at an ITEM of MDEC or MAPQ, is cleared by START, END and RESET, and faults the frame at END.
Rests on: 10_state.md PHASE. -/
def Obligations.PhaseIsGroupPosition : Prop :=
  State.reset.phase = false ∧
  ∀ (s t : State) (e : Event) (rest : List Event), s.pending = e :: rest → step s = .next t →
    (match e with
      | .start _ => t.phase = false
      | .item _ => t.phase = if s.opl = 0b001#3 ∨ s.opl = 0b011#3 then !s.phase else s.phase
      | .endFrame => t.phase = false ∧
          ((s.opl = 0b001#3 ∨ s.opl = 0b011#3) → s.phase = true →
            t.statuses = s.statuses ++ [.invalidBitLength])
      | .reset => t.phase = false)

/-- HOLD is written by an ITEM of MDEC or MAPQ at PHASE 0, with the item's bit, and by no other START, ITEM or
END. Rests on: 10_state.md HOLD. -/
def Obligations.HoldWrittenOnlyByFirstBit : Prop :=
  ∀ (s t : State) (e : Event) (rest : List Event), s.pending = e :: rest → step s = .next t →
    (match e with
      | .start _ => t.hold = s.hold
      | .item v =>
          if (s.opl = 0b001#3 ∨ s.opl = 0b011#3) ∧ s.phase = false then v = .bit t.hold
          else t.hold = s.hold
      | .endFrame => t.hold = s.hold
      | .reset => True)

/-- HOLD influences a step only at an ITEM of MDEC or MAPQ with PHASE 1. Rests on: 10_state.md HOLD. -/
def Obligations.HoldReadOnlyAtSecondBit : Prop :=
  ∀ (s : State) (h : Bit),
    ¬ (∃ v rest, s.pending = .item v :: rest ∧ s.busy = true ∧ s.phase = true ∧
        (s.opl = 0b001#3 ∨ s.opl = 0b011#3)) →
    (∀ r, step s = .refused r → step { s with hold := h } = .refused r) ∧
    (∀ t, step s = .next t →
      ∃ u, step { s with hold := h } = .next u ∧ { u with hold := t.hold } = t)

/-- The block emits only in ITEM steps, as many items and of the type R45 gives for the operation. Rests on:
R45. -/
def Obligations.EmitsOnlyInItemSteps : Prop :=
  ∀ (s t : State) (e : Event) (rest : List Event), s.Inv → s.pending = e :: rest → step s = .next t →
    (match e with
      | .start _ => t.emitted = s.emitted
      | .item v => ∃ ys, t.emitted = s.emitted ++ ys ∧
          (match decode s.opl with
            | .menc => ∃ b, v = .bit b ∧ ys = [.bit b, .bit (!b)]
            | .mdec => (s.phase = false → ys = []) ∧ (s.phase = true → ∃ b, ys = [.bit b])
            | .mapb => ∃ p, ys = [.symbol p]
            | .mapq => (s.phase = false → ys = []) ∧ (s.phase = true → ∃ p, ys = [.symbol p])
            | .detb => ∃ b, ys = [.bit b]
            | .detq => ∃ p, v = .symbol p ∧ ys = [.bit (ge0 p.i), .bit (ge0 p.q)]
            | .reserved _ => ys = [])
      | .endFrame => t.emitted = s.emitted
      | .reset => t.emitted = s.emitted)

/-- Exactly one status is delivered per frame, at END; the code 0b11 is never delivered. Rests on: R155. -/
def Obligations.StatusOnlyAtEnd : Prop :=
  (∀ (s t : State) (e : Event) (rest : List Event), s.pending = e :: rest → step s = .next t →
    t.statuses = s.statuses ++ (match e with
      | .start _ => []
      | .item _ => []
      | .endFrame => [statusAtEnd s.opl s.phase]
      | .reset => [])) ∧
  ∀ st : Status, st.code ≠ 0b11#2

/-- The three status codes, what the host keeps of a frame under each, and 0b11 never. Rests on: R71. -/
def Obligations.StatusCodes : Prop :=
  (∀ y : List Item,
    Status.code .ok = 0b00#2 ∧ (Report.mk y (some .ok)).result = some (.ok y) ∧
    Status.code .invalidBitLength = 0b01#2 ∧
      (Report.mk y (some .invalidBitLength)).result = some (.fault .invalidBitLength) ∧
    Status.code .illegalOp = 0b10#2 ∧
      (Report.mk y (some .illegalOp)).result = some (.fault .illegalOp)) ∧
  ∀ st : Status, st.code ≠ 0b11#2

/-- A step consumes exactly the next event, keeps the parameters, and only adds to the reports of ended frames
(the model's record, log 7). The model's own choice in it: logs 6, 7. Rests on: 00_scope.md section 7, agents
(R12), 10_state.md section 4, reset values, parameters are constants of the instance (R33), 10_state.md section
2, STATUS, the host must record it (R27). -/
def Obligations.StepConsumesOneEvent : Prop :=
  ∀ s t : State, step s = .next t →
    (∃ e, s.pending = e :: t.pending) ∧ t.fmt = s.fmt ∧ ∃ d, t.reports = s.reports ++ d

/-- Every step keeps the invariant of the state. The model's own choice in it: log 17. Rests on: 10_state.md
section 4, invariants of the state. -/
def Obligations.StepKeepsInvariant : Prop :=
  ∀ s t : State, s.Inv → step s = .next t → t.Inv

/-- The state after reset is idle, has the invariant, has delivered nothing, and has the default parameters.
Rests on: 10_state.md section 4, reset values, 00_scope.md section 4, implementation parameters. -/
def Obligations.ResetHasInvariant : Prop :=
  State.reset.Inv ∧ State.reset.busy = false ∧ State.reset.phase = false ∧ State.reset.out = [] ∧
    State.reset.emitted = [] ∧ State.reset.statuses = [] ∧
    State.reset.fmt.w = 16 ∧ State.reset.fmt.f = 14 ∧ one State.reset.fmt = 16384

/-- In a frame of MDEC or MAPQ, PHASE is the number of items modulo 2 and HOLD the last bit while it is 1. Rests
on: 10_state.md section 4, invariants of the state. -/
def Obligations.PhaseCountsItems : Prop :=
  ∀ (s : State) (op : BitVec 3) (x : List Bit) (rest : List Event),
    (decode op = .mdec ∨ decode op = .mapq) → s.busy = false →
    s.pending = .start op :: ((bitFrame x).map .item ++ rest) →
    ∃ t, runSteps (x.length + 1) s = .next t ∧ t.busy = true ∧ t.opl = op ∧ t.pending = rest ∧
      t.phase = decide (x.length % 2 = 1) ∧ (t.phase = true → x.getLast? = some t.hold)

/-- A well-formed event sequence is never refused: every one of its events has a step. Rests on: 20_memory.md
section 2, well-formed event sequence, 20_memory.md section 2, the step function. -/
def Obligations.WellFormedEventsAreServed : Prop :=
  ∀ (s : State) (k : Nat), s.Served → k ≤ s.pending.length →
    ∃ t, runSteps k s = .next t ∧ t.pending = s.pending.drop k ∧ t.Served

/-- A step refuses an event exactly when R43 does not allow it in the state. Rests on: 20_memory.md section 2,
well-formed event sequence. -/
def Obligations.RefusesExactlyIllFormedEvents : Prop :=
  ∀ (s : State) (e : Event) (rest : List Event), s.pending = e :: rest →
    ((∃ r, step s = .refused r) ↔ eventsWf s.fmt s.openOp [e] = false) ∧
    ((∃ t, step s = .next t) ↔ eventsWf s.fmt s.openOp [e] = true)

/-- The step machine and the frame-level meaning agree, for every command and every frame of its type. Rests on:
R47. -/
def Obligations.StepMachineAgreesWithExec : Prop :=
  ∀ (s : State) (op : BitVec 3) (x : List Item) (rest : List Event),
    s.busy = false → (decode op).acceptsFrame s.fmt x = true → s.pending = frameEvents op x ++ rest →
    ∃ (t : State) (y : List Item) (st : Status) (res : FrameResult),
      runSteps (x.length + 2) s = .next t ∧ t.reports = s.reports ++ [⟨y, some st⟩] ∧
      t.busy = false ∧ t.phase = false ∧ t.pending = rest ∧
      execFrame s.fmt (decode op) x = some res ∧
      (match res with
        | .ok out => st = .ok ∧ y = out
        | .fault .invalidBitLength => st = .invalidBitLength ∧
            execFrame s.fmt (decode op) (x.take (2 * (x.length / 2))) = some (.ok y)
        | .fault .illegalOp => st = .illegalOp ∧ y = [])

/-- Two idle states give the same outputs and statuses on every event sequence, whatever OPL and HOLD hold.
Rests on: R34. -/
def Obligations.IdleStatesAreIndistinguishable : Prop :=
  ∀ (s₁ s₂ : State) (k : Nat), s₁.Inv → s₂.Inv → s₁.busy = false → s₂.busy = false →
    s₁.fmt = s₂.fmt → s₁.pending = s₂.pending →
    (∃ t₁ t₂ d, runSteps k s₁ = .next t₁ ∧ runSteps k s₂ = .next t₂ ∧
      t₁.reports = s₁.reports ++ d ∧ t₂.reports = s₂.reports ++ d ∧
      t₁.out = t₂.out ∧ t₁.pending = t₂.pending ∧ t₁.busy = t₂.busy) ∨
    (∃ r, runSteps k s₁ = .refused r ∧ runSteps k s₂ = .refused r)

/-- Presenting the same frame twice gives the same items and the same status twice, a fault as well. Rests on:
20_memory.md section 5, no side effects, 60_exceptions.md section 1, no swallowing, no retry. -/
def Obligations.SameFrameSameReport : Prop :=
  ∀ (s : State) (op : BitVec 3) (x : List Item) (rest : List Event),
    s.busy = false → (decode op).acceptsFrame s.fmt x = true →
    s.pending = frameEvents op x ++ (frameEvents op x ++ rest) →
    ∃ (t : State) (r : Report), runSteps (2 * (x.length + 2)) s = .next t ∧
      t.reports = s.reports ++ [r, r] ∧ t.busy = false ∧ t.pending = rest

/-- RESET inside a frame abandons it: no status is delivered, the frame has no result, the block is idle. The
model's own choice in it: log 7. Rests on: 70_reset_and_hazards.md section 1, reset inside a frame. -/
def Obligations.ResetAbandonsOpenFrame : Prop :=
  ∀ (s : State) (op : BitVec 3) (x : List Item) (rest : List Event),
    s.busy = false → (decode op).acceptsFrame s.fmt x = true →
    s.pending = .start op :: (x.map .item ++ .reset :: rest) →
    ∃ (t : State) (r : Report), runSteps (x.length + 2) s = .next t ∧
      t.statuses = s.statuses ∧ t.reports = s.reports ++ [r] ∧ r.result = none ∧
      t.busy = false ∧ t.phase = false ∧ t.pending = rest

/-- A frame of a reserved code consumes every item, emits nothing, changes only BUSY and OPL, and ends with
IllegalOp (recorded by the model, logs 6, 7, 17). Rests on: 30_encoding.md section 3, reserved and illegal codes
(R63). -/
def Obligations.ReservedCodesAreSinkFrames : Prop :=
  (∀ (fmt : Format) (v : Bit) (x : List Item), x.all (Item.wf fmt) = true →
    execFrame fmt (.reserved v) x = some (.fault .illegalOp)) ∧
  ∀ (s : State) (op : BitVec 3) (x : List Item) (rest : List Event),
    (op = 0b110#3 ∨ op = 0b111#3) → s.busy = false → s.phase = false → x.all (Item.wf s.fmt) = true →
    s.pending = frameEvents op x ++ rest →
    runSteps (x.length + 2) s = .next { s with
      opl := op, pending := rest, out := []
      reports := s.reports ++ [⟨[], some .illegalOp⟩] }

/-- MENC of a whole frame: twice the length, each bit followed by its complement, as many ones as zeros. Rests
on: 40_manchester.md MENC, frame-level meaning and corner cases. -/
def Obligations.MencFrameMeaning : Prop :=
  ∀ (fmt : Format) (x : List Bit), ∃ y : List Bit,
    execFrame fmt .menc (bitFrame x) = some (.ok (bitFrame y)) ∧ y.length = 2 * x.length ∧
    (∀ (i : Nat) (b : Bit), x[i]? = some b → y[2 * i]? = some b ∧ y[2 * i + 1]? = some (!b)) ∧
    y.count true = x.length ∧ y.count false = x.length

/-- MDEC of a whole frame: a fault at odd length, else the first sub-bit of every group. Rests on:
40_manchester.md MDEC, frame-level meaning. -/
def Obligations.MdecFrameMeaning : Prop :=
  ∀ (fmt : Format) (coded : List Bit),
    (coded.length % 2 = 1 → execFrame fmt .mdec (bitFrame coded) = some (.fault .invalidBitLength)) ∧
    (coded.length % 2 = 0 → ∃ y : List Bit,
      execFrame fmt .mdec (bitFrame coded) = some (.ok (bitFrame y)) ∧ y.length = coded.length / 2 ∧
      ∀ i : Nat, i < y.length → y[i]? = coded[2 * i]?)

/-- MAPB of a whole frame: one symbol a bit, (+ONE, 0) for 1 and (-ONE, 0) for 0. Rests on: 41_mapper.md MAPB,
frame-level meaning. -/
def Obligations.MapbFrameMeaning : Prop :=
  ∀ (fmt : Format) (coded : List Bit), ∃ s : List Symbol,
    execFrame fmt .mapb (bitFrame coded) = some (.ok (symbolFrame s)) ∧ s.length = coded.length ∧
    ∀ (i : Nat) (b : Bit), coded[i]? = some b →
      s[i]? = some ⟨if b then (2 : Int) ^ fmt.f else -(2 : Int) ^ fmt.f, 0⟩

/-- MAPQ of a whole frame: a fault at odd length, else one symbol a pair, signs by the bits. Rests on:
41_mapper.md MAPQ, frame-level meaning. -/
def Obligations.MapqFrameMeaning : Prop :=
  ∀ (fmt : Format) (coded : List Bit),
    (coded.length % 2 = 1 → execFrame fmt .mapq (bitFrame coded) = some (.fault .invalidBitLength)) ∧
    (coded.length % 2 = 0 → ∃ s : List Symbol,
      execFrame fmt .mapq (bitFrame coded) = some (.ok (symbolFrame s)) ∧ s.length = coded.length / 2 ∧
      ∀ (i : Nat) (a b : Bit), coded[2 * i]? = some a → coded[2 * i + 1]? = some b →
        s[i]? = some ⟨if a then aq fmt else -aq fmt, if b then aq fmt else -aq fmt⟩)

/-- DETB of a whole frame: one bit a symbol, 1 exactly when I >= 0. Rests on: 42_detector.md DETB, frame-level
meaning. -/
def Obligations.DetbFrameMeaning : Prop :=
  ∀ (fmt : Format) (r : List Symbol), (∀ p ∈ r, p.wf fmt = true) → ∃ d : List Bit,
    execFrame fmt .detb (symbolFrame r) = some (.ok (bitFrame d)) ∧ d.length = r.length ∧
    ∀ (i : Nat) (p : Symbol), r[i]? = some p → d[i]? = some (decide (0 ≤ p.i))

/-- DETQ of a whole frame: two bits a symbol, the decision on I and then the decision on Q. Rests on:
42_detector.md DETQ, frame-level meaning. -/
def Obligations.DetqFrameMeaning : Prop :=
  ∀ (fmt : Format) (r : List Symbol), (∀ p ∈ r, p.wf fmt = true) → ∃ d : List Bit,
    execFrame fmt .detq (symbolFrame r) = some (.ok (bitFrame d)) ∧ d.length = 2 * r.length ∧
    ∀ (i : Nat) (p : Symbol), r[i]? = some p →
      d[2 * i]? = some (decide (0 ≤ p.i)) ∧ d[2 * i + 1]? = some (decide (0 ≤ p.q))

/-- Manchester decoding inverts Manchester encoding. Rests on: R82. -/
def Obligations.ManchesterRoundTrip : Prop :=
  ∀ (fmt : Format) (b : List Bit), ∃ c : List Item,
    execFrame fmt .menc (bitFrame b) = some (.ok c) ∧
    execFrame fmt .mdec c = some (.ok (bitFrame b))

/-- Encoding after decoding is not the identity, and MDEC is not injective. Rests on: R83. -/
def Obligations.MdecIsOnlyALeftInverse : Prop :=
  ∀ fmt : Format,
    execFrame fmt .mdec (bitFrame [false, false]) = some (.ok (bitFrame [false])) ∧
    execFrame fmt .menc (bitFrame [false]) = some (.ok (bitFrame [false, true])) ∧
    bitFrame [false, true] ≠ bitFrame [false, false] ∧
    execFrame fmt .mdec (bitFrame [false, true]) = execFrame fmt .mdec (bitFrame [false, false])

/-- A decoded bit is wrong exactly when the first sub-bit of its group is in error. Rests on: R85. -/
def Obligations.ChannelBitErrorEffect : Prop :=
  ∀ (fmt : Format) (g : List (Bit × Bit × Bit)),
    execFrame fmt .mdec (bitFrame (g.flatMap fun x => [x.1 ^^ x.2.1, !x.1 ^^ x.2.2])) =
      some (.ok (bitFrame (g.map fun x => x.1 ^^ x.2.1))) ∧
    ∀ x ∈ g, ((x.1 ^^ x.2.1) ≠ x.1 ↔ x.2.1 = true)

/-- AQ is the unique integer a >= 1 with (2a-1)^2 < 2^(2F+1) < (2a+1)^2. Rests on: R93. -/
def Obligations.AqIsNearestInteger : Prop :=
  (∀ fmt : Format,
    1 ≤ aq fmt ∧ (2 * aq fmt - 1) ^ 2 < (2 : Int) ^ (2 * fmt.f + 1) ∧
    (2 : Int) ^ (2 * fmt.f + 1) < (2 * aq fmt + 1) ^ 2 ∧
    ∀ a : Int, 1 ≤ a → (2 * a - 1) ^ 2 < (2 : Int) ^ (2 * fmt.f + 1) →
      (2 : Int) ^ (2 * fmt.f + 1) < (2 * a + 1) ^ 2 → a = aq fmt) ∧
  aq Format.standard = 11585

/-- Every BPSK point has energy ONE^2; every QPSK point 2*AQ^2, which differs from ONE^2 by at most 2*AQ. Rests
on: 41_mapper.md Laws of the mapper, energy normalisation. -/
def Obligations.SymbolEnergy : Prop :=
  ∀ fmt : Format,
    (∀ c, (bpskPoint fmt c).i ^ 2 + (bpskPoint fmt c).q ^ 2 = one fmt ^ 2) ∧
    (∀ c0 c1, (qpskPoint fmt c0 c1).i ^ 2 + (qpskPoint fmt c0 c1).q ^ 2 = 2 * aq fmt ^ 2) ∧
    |2 * aq fmt ^ 2 - one fmt ^ 2| ≤ 2 * aq fmt

/-- Every sample the mapper emits is -ONE, -AQ, 0, +AQ or +ONE, and all are in the sample range. Rests on: R96.
-/
def Obligations.MapperRange : Prop :=
  (∀ fmt : Format,
    1 ≤ aq fmt ∧ aq fmt < one fmt ∧ one fmt = (2 : Int) ^ fmt.f ∧ one fmt ≤ (2 : Int) ^ (fmt.w - 2) ∧
    (2 : Int) ^ (fmt.w - 2) < (2 : Int) ^ (fmt.w - 1) ∧
    ∀ a ∈ [-one fmt, -aq fmt, 0, aq fmt, one fmt], sampleInRange fmt.w a = true) ∧
  ∀ (fmt : Format) (i : Instr) (x y : List Item), (i = .mapb ∨ i = .mapq) →
    execFrame fmt i x = some (.ok y) →
    ∀ v ∈ y, ∃ p, v = .symbol p ∧ p.wf fmt = true ∧
      p.i ∈ [-one fmt, -aq fmt, 0, aq fmt, one fmt] ∧ p.q ∈ [-one fmt, -aq fmt, 0, aq fmt, one fmt]

/-- Two QPSK points differ in the sign of exactly one component exactly when their pairs differ in exactly one
bit. Rests on: R97. -/
def Obligations.GrayMapping : Prop :=
  ∀ (fmt : Format) (c0 c1 d0 d1 : Bit),
    let p := qpskPoint fmt c0 c1
    let r := qpskPoint fmt d0 d1
    ((p.i = -r.i ↔ c0 ≠ d0) ∧ (p.i = r.i ↔ c0 = d0)) ∧
    ((p.q = -r.q ↔ c1 ≠ d1) ∧ (p.q = r.q ↔ c1 = d1)) ∧
    ((p.i = -r.i ∧ p.q = r.q ∨ p.i = r.i ∧ p.q = -r.q) ↔
      (c0 ≠ d0 ∧ c1 = d1 ∨ c0 = d0 ∧ c1 ≠ d1)) ∧
    ((p.i = -r.i ∧ p.q = -r.q) ↔ (c0 ≠ d0 ∧ c1 ≠ d1))

/-- The sign decision is the nearest constellation point; a component equal to 0 is a tie that decides 1. Rests
on: R102. -/
def Obligations.SignDecisionIsMinimumDistance : Prop :=
  ∀ (fmt : Format) (r : Symbol), r.wf fmt = true →
    (∀ a b, execFrame fmt .detq [.symbol r] = some (.ok [.bit a, .bit b]) →
      (∀ c0 c1, sqDistance r (qpskPoint fmt a b) ≤ sqDistance r (qpskPoint fmt c0 c1)) ∧
      (∀ c1, r.i ≠ 0 → sqDistance r (qpskPoint fmt a b) < sqDistance r (qpskPoint fmt (!a) c1)) ∧
      (∀ c0, r.q ≠ 0 → sqDistance r (qpskPoint fmt a b) < sqDistance r (qpskPoint fmt c0 (!b))) ∧
      (r.i = 0 → a = true ∧ ∀ c1,
        sqDistance r (qpskPoint fmt true c1) = sqDistance r (qpskPoint fmt false c1)) ∧
      (r.q = 0 → b = true ∧ ∀ c0,
        sqDistance r (qpskPoint fmt c0 true) = sqDistance r (qpskPoint fmt c0 false))) ∧
    (∀ a, execFrame fmt .detb [.symbol r] = some (.ok [.bit a]) →
      (∀ c, sqDistance r (bpskPoint fmt a) ≤ sqDistance r (bpskPoint fmt c)) ∧
      (r.i ≠ 0 → sqDistance r (bpskPoint fmt a) < sqDistance r (bpskPoint fmt (!a))) ∧
      (r.i = 0 → a = true ∧
        sqDistance r (bpskPoint fmt true) = sqDistance r (bpskPoint fmt false)))

/-- The detector inverts the mapper on clean symbols, for both schemes. Rests on: R104. -/
def Obligations.DetectorInvertsMapper : Prop :=
  (∀ (fmt : Format) (c : List Bit), ∃ s : List Item,
    execFrame fmt .mapb (bitFrame c) = some (.ok s) ∧
    execFrame fmt .detb s = some (.ok (bitFrame c))) ∧
  (∀ (fmt : Format) (c : List Bit), c.length % 2 = 0 → ∃ s : List Item,
    execFrame fmt .mapq (bitFrame c) = some (.ok s) ∧
    execFrame fmt .detq s = some (.ok (bitFrame c)))

/-- A bit is decided correctly exactly when the noise on its component is within the margin of R105. Rests on:
R105. -/
def Obligations.NoiseMargin : Prop :=
  (∀ (fmt : Format) (b : Bit) (n : Symbol), (addNoise (bpskPoint fmt b) n).wf fmt = true →
    ∃ d, execFrame fmt .detb [.symbol (addNoise (bpskPoint fmt b) n)] = some (.ok [.bit d]) ∧
      (d = b ↔ if b then -one fmt ≤ n.i else n.i ≤ one fmt - 1)) ∧
  (∀ (fmt : Format) (c0 c1 : Bit) (n : Symbol), (addNoise (qpskPoint fmt c0 c1) n).wf fmt = true →
    ∃ d0 d1,
      execFrame fmt .detq [.symbol (addNoise (qpskPoint fmt c0 c1) n)] = some (.ok [.bit d0, .bit d1]) ∧
      (d0 = c0 ↔ if c0 then -aq fmt ≤ n.i else n.i ≤ aq fmt - 1) ∧
      (d1 = c1 ↔ if c1 then -aq fmt ≤ n.q else n.q ≤ aq fmt - 1))

/-- A sample assembled from a bit is +A or the W-bit two's-complement negation of A, and never overflows. Rests
on: R69. -/
def Obligations.AmplitudeIsWordNegation : Prop :=
  ∀ fmt : Format,
    (∀ (c : Bit) (a : Int), a = one fmt ∨ a = aq fmt →
      sampleWord fmt.w (amp c a) = (if c then sampleWord fmt.w a else -(sampleWord fmt.w a)) ∧
      wordSample (sampleWord fmt.w (amp c a)) = (if c then a else -a) ∧
      sampleInRange fmt.w (amp c a) = true) ∧
    (∀ c, bpskPoint fmt c = ⟨amp c (one fmt), 0⟩) ∧
    (∀ c0 c1, qpskPoint fmt c0 c1 = ⟨amp c0 (aq fmt), amp c1 (aq fmt)⟩) ∧
    1 ≤ aq fmt ∧ aq fmt < one fmt ∧ one fmt = (2 : Int) ^ fmt.f ∧ one fmt ≤ (2 : Int) ^ (fmt.w - 2)

/-- A sample is its W-bit word: ge0 is the inverted sign bit, widening sign-extends, and a packed symbol reads
back. Rests on: 00_scope.md section 5, bit numbering and values, 20_memory.md section 3, packed views,
30_encoding.md section 4, packed words. -/
def Obligations.SampleWordsAndPackedSymbols : Prop :=
  (∀ (w : Nat) (s : Int), 1 ≤ w → sampleInRange w s = true →
    wordSample (sampleWord w s) = s ∧ ge0 s = !(sampleWord w s).msb ∧
    ∀ n, w ≤ n → widenSample n (sampleWord w s) = sampleWord n s) ∧
  ∀ (fmt : Format) (p : Symbol), p.wf fmt = true → unpackSymbol fmt.w (packSymbol fmt.w p) = p

/-- TXB: two opposite BPSK symbols for each data bit. Rests on: R110. -/
def Obligations.TxbMeaning : Prop :=
  ∀ (fmt : Format) (x : List Bit), ∃ (c : List Item) (s : List Symbol),
    execFrame fmt .menc (bitFrame x) = some (.ok c) ∧
    execFrame fmt .mapb c = some (.ok (symbolFrame s)) ∧
    execTxb fmt (bitFrame x) = some (.ok (symbolFrame s)) ∧ s.length = 2 * x.length ∧
    (∀ (i : Nat) (b : Bit), x[i]? = some b →
      s[2 * i]? = some ⟨sgn b * one fmt, 0⟩ ∧ s[2 * i + 1]? = some ⟨-(sgn b * one fmt), 0⟩) ∧
    (s.map Symbol.i).sum = 0

/-- TXQ: one QPSK symbol for each data bit, on one diagonal. Rests on: R111. -/
def Obligations.TxqMeaning : Prop :=
  ∀ (fmt : Format) (x : List Bit), ∃ (c : List Item) (s : List Symbol),
    execFrame fmt .menc (bitFrame x) = some (.ok c) ∧
    execFrame fmt .mapq c = some (.ok (symbolFrame s)) ∧
    execTxq fmt (bitFrame x) = some (.ok (symbolFrame s)) ∧ s.length = x.length ∧
    (∀ (i : Nat) (b : Bit), x[i]? = some b → s[i]? = some ⟨sgn b * aq fmt, -(sgn b * aq fmt)⟩) ∧
    ∀ p ∈ s, p.i + p.q = 0

/-- RXB: a fault at an odd number of symbols, else the sign of the I of every even-indexed symbol. Rests on:
R112. -/
def Obligations.RxbMeaning : Prop :=
  ∀ (fmt : Format) (r : List Symbol), (∀ p ∈ r, p.wf fmt = true) →
    (∃ d, execFrame fmt .detb (symbolFrame r) = some (.ok d) ∧
      execRxb fmt (symbolFrame r) = execFrame fmt .mdec d) ∧
    (r.length % 2 = 1 → execRxb fmt (symbolFrame r) = some (.fault .invalidBitLength)) ∧
    (r.length % 2 = 0 → ∃ y : List Bit,
      execRxb fmt (symbolFrame r) = some (.ok (bitFrame y)) ∧ y.length = r.length / 2 ∧
      ∀ (i : Nat) (p : Symbol), r[2 * i]? = some p → y[i]? = some (ge0 p.i))

/-- RXQ: never a fault, the sign of the I of every symbol. Rests on: R113. -/
def Obligations.RxqMeaning : Prop :=
  ∀ (fmt : Format) (r : List Symbol), (∀ p ∈ r, p.wf fmt = true) →
    ∃ (d y : List Bit),
      execFrame fmt .detq (symbolFrame r) = some (.ok (bitFrame d)) ∧ d.length = 2 * r.length ∧
      execRxq fmt (symbolFrame r) = execFrame fmt .mdec (bitFrame d) ∧
      execRxq fmt (symbolFrame r) = some (.ok (bitFrame y)) ∧ y.length = r.length ∧
      ∀ (i : Nat) (p : Symbol), r[i]? = some p → y[i]? = some (ge0 p.i) ∧ d[2 * i + 1]? = some (ge0 p.q)

/-- With a channel that changes nothing both links return the data, with no coded-bit error. Rests on: R114. -/
def Obligations.LoopBack : Prop :=
  ∀ (fmt : Format) (x : List Bit), ∃ (c sB sQ : List Item),
    execFrame fmt .menc (bitFrame x) = some (.ok c) ∧
    execTxb fmt (bitFrame x) = some (.ok sB) ∧ execFrame fmt .detb sB = some (.ok c) ∧
    execRxb fmt sB = some (.ok (bitFrame x)) ∧
    execTxq fmt (bitFrame x) = some (.ok sQ) ∧ execFrame fmt .detq sQ = some (.ok c) ∧
    execRxq fmt sQ = some (.ok (bitFrame x))

/-- Over a noisy link a data bit is right exactly when the noise on its first symbol's (BPSK) or its own (QPSK)
I is within the margin. Rests on: R116. -/
def Obligations.NoisyLinkDecodesByFirstNoise : Prop :=
  ∀ (fmt : Format) (x : List Bit) (s n : List Symbol), n.length = s.length →
    (∀ p ∈ List.zipWith addNoise s n, p.wf fmt = true) →
    (execTxb fmt (bitFrame x) = some (.ok (symbolFrame s)) →
      ∃ y : List Bit,
        execRxb fmt (symbolFrame (List.zipWith addNoise s n)) = some (.ok (bitFrame y)) ∧
        y.length = x.length ∧
        ∀ (i : Nat) (b : Bit) (m : Symbol), x[i]? = some b → n[2 * i]? = some m →
          (y[i]? = some b ↔ if b then -one fmt ≤ m.i else m.i ≤ one fmt - 1)) ∧
    (execTxq fmt (bitFrame x) = some (.ok (symbolFrame s)) →
      ∃ y : List Bit,
        execRxq fmt (symbolFrame (List.zipWith addNoise s n)) = some (.ok (bitFrame y)) ∧
        y.length = x.length ∧
        ∀ (i : Nat) (b : Bit) (m : Symbol), x[i]? = some b → n[i]? = some m →
          (y[i]? = some b ↔ if b then -aq fmt ≤ m.i else m.i ≤ aq fmt - 1))

/-- A frame may be cut at a group boundary; an MDEC or MAPQ frame cut at an odd index faults. The model's own
choice in it: log 19. Rests on: 43_chains.md End-to-end laws, frames may be cut at group boundaries. -/
def Obligations.FramesCutAtGroupBoundaries : Prop :=
  (∀ (fmt : Format) (i : Instr) (u v a b : List Item), u.length % groupSize i = 0 →
    execFrame fmt i u = some (.ok a) → execFrame fmt i v = some (.ok b) →
    execFrame fmt i (u ++ v) = some (.ok (a ++ b))) ∧
  (∀ (fmt : Format) (i : Instr) (u : List Bit), (i = .mdec ∨ i = .mapq) → u.length % 2 = 1 →
    execFrame fmt i (bitFrame u) = some (.fault .invalidBitLength))
end

