-- ==== Sys2Proof/Laws/Operands.lean ====
section
/-! SUPPORT. What reading an operand, choosing an amplitude and testing a sign can answer. -/

namespace Sys2Proof.Machine

theorem takeBit_eq_some {v : Item} {b : Bit} : takeBit v = some b ↔ v = .bit b := by
  cases v <;> simp [takeBit]

theorem takeSymbol_eq_some {fmt : Format} {v : Item} {p : Symbol} :
    takeSymbol fmt v = some p ↔ v = .symbol p ∧ p.wf fmt = true := by
  cases v with
  | bit b => simp [takeSymbol]
  | symbol r =>
    simp only [takeSymbol, Item.symbol.injEq]
    split
    · constructor
      · rintro ⟨rfl⟩; exact ⟨rfl, by assumption⟩
      · rintro ⟨rfl, -⟩; rfl
    · constructor
      · simp
      · rintro ⟨rfl, h⟩; contradiction

@[simp] theorem takeBit_bit (b : Bit) : takeBit (.bit b) = some b := rfl

@[simp] theorem bitsOf_bitFrame (b : List Bit) : bitsOf (bitFrame b) = some b := by
  induction b with
  | nil => rfl
  | cons a b ih => 
    simp only [bitFrame] at ih
    simp [bitFrame, bitsOf, ih]

/-- The frames `bitsOf` reads are exactly the frames of bits. -/
theorem bitsOf_eq_some {x : List Item} {b : List Bit} : bitsOf x = some b ↔ x = bitFrame b := by
  constructor
  · induction x generalizing b with
    | nil => simp [bitsOf, bitFrame]
    | cons v x ih =>
      intro h
      cases v with
      | symbol p => simp [bitsOf, takeBit] at h
      | bit a =>
        cases hx : bitsOf x with
        | none => simp [bitsOf, hx] at h
        | some bs =>
          simp [bitsOf, hx] at h
          subst h
          simp [bitFrame, ih hx]
  · rintro rfl; simp

/-- The frames `symbolsOf` reads are exactly the frames of symbols of the format. -/
theorem symbolsOf_eq_some {fmt : Format} {x : List Item} {r : List Symbol} :
    symbolsOf fmt x = some r ↔ x = symbolFrame r ∧ ∀ p ∈ r, p.wf fmt = true := by
  induction x generalizing r with
  | nil => cases r <;> simp [symbolsOf, symbolFrame]
  | cons v x ih =>
    constructor
    · intro h
      cases hv : takeSymbol fmt v with
      | none => simp [symbolsOf, hv] at h
      | some p =>
        cases hx : symbolsOf fmt x with
        | none => simp [symbolsOf, hv, hx] at h
        | some ps =>
          simp [symbolsOf, hv, hx] at h
          subst h
          obtain ⟨rfl, hp⟩ := takeSymbol_eq_some.mp hv
          obtain ⟨rfl, hps⟩ := ih.mp hx
          exact ⟨rfl, by simpa using ⟨hp, hps⟩⟩
    · rintro ⟨h, hr⟩
      cases r with
      | nil => simp [symbolFrame] at h
      | cons p ps =>
        simp [symbolFrame] at h
        obtain ⟨rfl, rfl⟩ := h
        have hp := takeSymbol_eq_some.mpr ⟨rfl, hr p (by simp)⟩
        have hx : symbolsOf fmt (symbolFrame ps) = some ps :=
          ih.mpr ⟨rfl, fun q hq => hr q (by simp [hq])⟩
        simp only [symbolFrame] at hx
        simp [symbolsOf, hp, hx]

/-- What one digit after another keeps: the result is below the root's upper bound and not above its lower one. -/
theorem aqDigits_bounds (n : Nat) :
    ∀ (k a : Nat), (a = 0 ∨ (2 * a - 1) ^ 2 < n) → n ≤ (2 * (a + 2 ^ k) - 1) ^ 2 →
      (aqDigits n k a = 0 ∨ (2 * aqDigits n k a - 1) ^ 2 < n) ∧ n ≤ (2 * aqDigits n k a + 1) ^ 2 := by
  intro k
  induction k with
  | zero =>
    intro a hl hu
    refine ⟨hl, ?_⟩
    simpa [aqDigits, Nat.mul_add] using hu
  | succ k ih =>
    intro a hl hu
    unfold aqDigits
    split
    · rename_i h
      refine ih _ (.inr h) ?_
      have e : a + 2 ^ k + 2 ^ k = a + 2 ^ (k + 1) := by rw [pow_succ]; omega
      rw [e]; exact hu
    · rename_i h
      exact ih _ hl (by omega)

end Sys2Proof.Machine
end

