-- ==== Sys2Proof/Laws/State.lean ====
section
/-! SUPPORT. One lemma per field of State and per operation that writes State (Machine/Ops.lean). -/

namespace Sys2Proof.Machine

@[simp] theorem State.setPending_fmt (es : List Event) (s : State) :
    (s.setPending es).fmt = s.fmt := rfl

@[simp] theorem State.setPending_busy (es : List Event) (s : State) :
    (s.setPending es).busy = s.busy := rfl

@[simp] theorem State.setPending_opl (es : List Event) (s : State) :
    (s.setPending es).opl = s.opl := rfl

@[simp] theorem State.setPending_phase (es : List Event) (s : State) :
    (s.setPending es).phase = s.phase := rfl

@[simp] theorem State.setPending_hold (es : List Event) (s : State) :
    (s.setPending es).hold = s.hold := rfl

@[simp] theorem State.setPending_pending (es : List Event) (s : State) :
    (s.setPending es).pending = es := rfl

@[simp] theorem State.setPending_out (es : List Event) (s : State) :
    (s.setPending es).out = s.out := rfl

@[simp] theorem State.setPending_reports (es : List Event) (s : State) :
    (s.setPending es).reports = s.reports := rfl

@[simp] theorem State.setPending_free (es : List Event) (s : State) :
    (s.setPending es).free = s.free := rfl

@[simp] theorem State.setPhase_fmt (b : Bit) (s : State) :
    (s.setPhase b).fmt = s.fmt := rfl

@[simp] theorem State.setPhase_busy (b : Bit) (s : State) :
    (s.setPhase b).busy = s.busy := rfl

@[simp] theorem State.setPhase_opl (b : Bit) (s : State) :
    (s.setPhase b).opl = s.opl := rfl

@[simp] theorem State.setPhase_phase (b : Bit) (s : State) :
    (s.setPhase b).phase = b := rfl

@[simp] theorem State.setPhase_hold (b : Bit) (s : State) :
    (s.setPhase b).hold = s.hold := rfl

@[simp] theorem State.setPhase_pending (b : Bit) (s : State) :
    (s.setPhase b).pending = s.pending := rfl

@[simp] theorem State.setPhase_out (b : Bit) (s : State) :
    (s.setPhase b).out = s.out := rfl

@[simp] theorem State.setPhase_reports (b : Bit) (s : State) :
    (s.setPhase b).reports = s.reports := rfl

@[simp] theorem State.setPhase_free (b : Bit) (s : State) :
    (s.setPhase b).free = s.free := rfl

@[simp] theorem State.setHold_fmt (b : Bit) (s : State) :
    (s.setHold b).fmt = s.fmt := rfl

@[simp] theorem State.setHold_busy (b : Bit) (s : State) :
    (s.setHold b).busy = s.busy := rfl

@[simp] theorem State.setHold_opl (b : Bit) (s : State) :
    (s.setHold b).opl = s.opl := rfl

@[simp] theorem State.setHold_phase (b : Bit) (s : State) :
    (s.setHold b).phase = s.phase := rfl

@[simp] theorem State.setHold_hold (b : Bit) (s : State) :
    (s.setHold b).hold = b := rfl

@[simp] theorem State.setHold_pending (b : Bit) (s : State) :
    (s.setHold b).pending = s.pending := rfl

@[simp] theorem State.setHold_out (b : Bit) (s : State) :
    (s.setHold b).out = s.out := rfl

@[simp] theorem State.setHold_reports (b : Bit) (s : State) :
    (s.setHold b).reports = s.reports := rfl

@[simp] theorem State.setHold_free (b : Bit) (s : State) :
    (s.setHold b).free = s.free := rfl

@[simp] theorem State.emit_fmt (ys : List Item) (s : State) :
    (s.emit ys).fmt = s.fmt := rfl

@[simp] theorem State.emit_busy (ys : List Item) (s : State) :
    (s.emit ys).busy = s.busy := rfl

@[simp] theorem State.emit_opl (ys : List Item) (s : State) :
    (s.emit ys).opl = s.opl := rfl

@[simp] theorem State.emit_phase (ys : List Item) (s : State) :
    (s.emit ys).phase = s.phase := rfl

@[simp] theorem State.emit_hold (ys : List Item) (s : State) :
    (s.emit ys).hold = s.hold := rfl

@[simp] theorem State.emit_pending (ys : List Item) (s : State) :
    (s.emit ys).pending = s.pending := rfl

@[simp] theorem State.emit_out (ys : List Item) (s : State) :
    (s.emit ys).out = s.out ++ ys := rfl

@[simp] theorem State.emit_reports (ys : List Item) (s : State) :
    (s.emit ys).reports = s.reports := rfl

@[simp] theorem State.emit_free (ys : List Item) (s : State) :
    (s.emit ys).free = s.free := rfl

@[simp] theorem State.openFrame_fmt (op : BitVec 3) (s : State) :
    (s.openFrame op).fmt = s.fmt := rfl

@[simp] theorem State.openFrame_busy (op : BitVec 3) (s : State) :
    (s.openFrame op).busy = true := rfl

@[simp] theorem State.openFrame_opl (op : BitVec 3) (s : State) :
    (s.openFrame op).opl = op := rfl

@[simp] theorem State.openFrame_phase (op : BitVec 3) (s : State) :
    (s.openFrame op).phase = false := rfl

@[simp] theorem State.openFrame_hold (op : BitVec 3) (s : State) :
    (s.openFrame op).hold = s.hold := rfl

@[simp] theorem State.openFrame_pending (op : BitVec 3) (s : State) :
    (s.openFrame op).pending = s.pending := rfl

@[simp] theorem State.openFrame_out (op : BitVec 3) (s : State) :
    (s.openFrame op).out = [] := rfl

@[simp] theorem State.openFrame_reports (op : BitVec 3) (s : State) :
    (s.openFrame op).reports = s.reports := rfl

@[simp] theorem State.openFrame_free (op : BitVec 3) (s : State) :
    (s.openFrame op).free = s.free := rfl

@[simp] theorem State.closeFrame_fmt (st : Status) (s : State) :
    (s.closeFrame st).fmt = s.fmt := rfl

@[simp] theorem State.closeFrame_busy (st : Status) (s : State) :
    (s.closeFrame st).busy = false := rfl

@[simp] theorem State.closeFrame_opl (st : Status) (s : State) :
    (s.closeFrame st).opl = s.opl := rfl

@[simp] theorem State.closeFrame_phase (st : Status) (s : State) :
    (s.closeFrame st).phase = false := rfl

@[simp] theorem State.closeFrame_hold (st : Status) (s : State) :
    (s.closeFrame st).hold = s.hold := rfl

@[simp] theorem State.closeFrame_pending (st : Status) (s : State) :
    (s.closeFrame st).pending = s.pending := rfl

@[simp] theorem State.closeFrame_out (st : Status) (s : State) :
    (s.closeFrame st).out = [] := rfl

@[simp] theorem State.closeFrame_reports (st : Status) (s : State) :
    (s.closeFrame st).reports = s.reports ++ [⟨s.out, some st⟩] := rfl

@[simp] theorem State.closeFrame_free (st : Status) (s : State) :
    (s.closeFrame st).free = s.free := rfl

@[simp] theorem State.resetBlock_fmt (s : State) :
    (s.resetBlock).fmt = s.fmt := rfl

@[simp] theorem State.resetBlock_busy (s : State) :
    (s.resetBlock).busy = false := rfl

@[simp] theorem State.resetBlock_opl (s : State) :
    (s.resetBlock).opl = Config.freeOp s.free := rfl

@[simp] theorem State.resetBlock_phase (s : State) :
    (s.resetBlock).phase = false := rfl

@[simp] theorem State.resetBlock_hold (s : State) :
    (s.resetBlock).hold = Config.freeBit s.free := rfl

@[simp] theorem State.resetBlock_pending (s : State) :
    (s.resetBlock).pending = s.pending := rfl

@[simp] theorem State.resetBlock_out (s : State) :
    (s.resetBlock).out = [] := rfl

@[simp] theorem State.resetBlock_reports (s : State) :
    (s.resetBlock).reports = if s.busy then s.reports ++ [⟨s.out, none⟩] else s.reports := rfl

@[simp] theorem State.resetBlock_free (s : State) :
    (s.resetBlock).free = s.free + 1 := rfl

@[simp] theorem State.presentCommand_fmt (i : Instr) (s : State) :
    (s.presentCommand i).fmt = s.fmt := rfl

@[simp] theorem State.presentCommand_busy (i : Instr) (s : State) :
    (s.presentCommand i).busy = false := rfl

@[simp] theorem State.presentCommand_opl (i : Instr) (s : State) :
    (s.presentCommand i).opl = s.opl := rfl

@[simp] theorem State.presentCommand_phase (i : Instr) (s : State) :
    (s.presentCommand i).phase = false := rfl

@[simp] theorem State.presentCommand_hold (i : Instr) (s : State) :
    (s.presentCommand i).hold = s.hold := rfl

@[simp] theorem State.presentCommand_pending (i : Instr) (s : State) :
    (s.presentCommand i).pending = .start (encode i) :: s.pending := rfl

@[simp] theorem State.presentCommand_out (i : Instr) (s : State) :
    (s.presentCommand i).out = s.out := rfl

@[simp] theorem State.presentCommand_reports (i : Instr) (s : State) :
    (s.presentCommand i).reports = s.reports := rfl

@[simp] theorem State.presentCommand_free (i : Instr) (s : State) :
    (s.presentCommand i).free = s.free := rfl

/-- Writing the queue touches nothing else, so two writes are the last one. -/
@[simp] theorem State.setPending_setPending (es es' : List Event) (s : State) :
    (s.setPending es).setPending es' = s.setPending es' := rfl

end Sys2Proof.Machine
end

