-- ==== Sys2Proof/Laws/Ops.lean ====
section
/-! SUPPORT. What each shared operation can answer, said once: provers cite these instead of unfolding it. -/

namespace Sys2Proof.Machine

/-- An event that no operation serves has a next state only if it is RESET. -/
theorem unserved_next {s t : State} (h : unserved s = .next t) :
    ∃ rest, s.pending = .reset :: rest ∧ t = (s.setPending rest).resetBlock := by
  unfold unserved at h
  split at h
  case h_2 rest e => exact ⟨rest, e, by simpa using h.symm⟩
  all_goals simp at h

/-- RESET has a next state from every state. -/
theorem unserved_reset {s : State} {rest : List Event} (h : s.pending = .reset :: rest) :
    unserved s = .next (s.setPending rest).resetBlock := by
  simp [unserved, h]

/-- Everything one event of a frame can do when it has a next state. -/
theorem runEvent_next {itemStep : Item → State → Option State} {status : State → Status} {s t : State}
    (h : runEvent itemStep status s = .next t) :
    (∃ op rest, s.pending = .start op :: rest ∧ s.busy = false ∧ t = (s.setPending rest).openFrame op) ∨
    (∃ v rest, s.pending = .item v :: rest ∧ s.busy = true ∧ itemStep v (s.setPending rest) = some t) ∨
    (∃ rest, s.pending = .endFrame :: rest ∧ s.busy = true ∧
      t = (s.setPending rest).closeFrame (status s)) ∨
    (∃ rest, s.pending = .reset :: rest ∧ t = (s.setPending rest).resetBlock) := by
  have reset_only : unserved s = .next t →
      ∃ rest, s.pending = .reset :: rest ∧ t = (s.setPending rest).resetBlock := unserved_next
  unfold runEvent at h
  split at h
  case h_1 op rest e =>
    split at h
    · exact .inr (.inr (.inr (reset_only h)))
    · rename_i hb
      exact .inl ⟨op, rest, e, by simpa using hb, by simpa using h.symm⟩
  case h_2 v rest e =>
    split at h
    · rename_i hb
      split at h
      · rename_i u hu
        simp at h
        exact .inr (.inl ⟨v, rest, e, hb, by rw [hu, h]⟩)
      · simp at h
    · exact .inr (.inr (.inr (reset_only h)))
  case h_3 rest e =>
    split at h
    · rename_i hb
      exact .inr (.inr (.inl ⟨rest, e, hb, by simpa using h.symm⟩))
    · exact .inr (.inr (.inr (reset_only h)))
  all_goals exact .inr (.inr (.inr (reset_only h)))

/-- The ITEM event of an open frame runs the operation's ITEM step. -/
theorem runEvent_item {itemStep : Item → State → Option State} {status : State → Status} {s t : State}
    {v : Item} {rest : List Event} (hp : s.pending = .item v :: rest) (hb : s.busy = true)
    (ht : itemStep v (s.setPending rest) = some t) : runEvent itemStep status s = .next t := by
  simp [runEvent, hp, hb, ht]

/-- A pair step at `PHASE = 0` holds the bit. -/
theorem State.pairStep_first {s : State} (output : Bit → Bit → List Item) (b : Bit) (h : s.phase = false) :
    s.pairStep output b = (s.setHold b).setPhase true := by
  simp [State.pairStep, h]

/-- A pair step at `PHASE = 1` emits the group. -/
theorem State.pairStep_second {s : State} (output : Bit → Bit → List Item) (b : Bit) (h : s.phase = true) :
    s.pairStep output b = (s.emit (output s.hold b)).setPhase false := by
  simp [State.pairStep, h]

end Sys2Proof.Machine
end

