-- ==== Sys2Proof/Laws/PerInstr.lean ====
section
/-! SUPPORT. Statements about each command as syntax: its code has the fields of spec/30_encoding.md R60, and the
decoder reads it back. -/

namespace Sys2Proof.Laws

/-- The code of `i` is `UNIT ++ VAR` of its fields (R60) and stands in one byte of which the upper five bits are 0
(log 10). -/
def CommandWord.Statement (i : Instr) : Prop :=
  encode i = unitField (encode i) ++ (BitVec.ofBool (varField (encode i))) ∧
    (encodeBytes i).map BitVec.toNat = [(encode i).toNat]

theorem CommandWord.menc : CommandWord.Statement .menc := by unfold CommandWord.Statement; decide
theorem CommandWord.mdec : CommandWord.Statement .mdec := by unfold CommandWord.Statement; decide
theorem CommandWord.mapb : CommandWord.Statement .mapb := by unfold CommandWord.Statement; decide
theorem CommandWord.mapq : CommandWord.Statement .mapq := by unfold CommandWord.Statement; decide
theorem CommandWord.detb : CommandWord.Statement .detb := by unfold CommandWord.Statement; decide
theorem CommandWord.detq : CommandWord.Statement .detq := by unfold CommandWord.Statement; decide
theorem CommandWord.reserved (v : Bit) : CommandWord.Statement (.reserved v) := by
  cases v <;> (unfold CommandWord.Statement; decide)

end Sys2Proof.Laws
end

