-- ==== Sys2Proof/Laws/Step.lean ====
section
/-! SUPPORT. What a step can do, said once, and the host's run as this model's. -/

namespace Sys2Proof.Machine

/-- The ITEM step of each operation. -/
def itemStepOf : Instr → Item → State → Option State
  | .menc => mencItem
  | .mdec => mdecItem
  | .mapb => mapbItem
  | .mapq => mapqItem
  | .detb => detbItem
  | .detq => detqItem
  | .reserved _ => reservedItem

/-- The status each operation delivers at END. -/
def statusOf : Instr → State → Status
  | .menc => statusSingle
  | .mdec => statusPaired
  | .mapb => statusSingle
  | .mapq => statusPaired
  | .detb => statusSingle
  | .detq => statusSingle
  | .reserved _ => statusReserved

theorem exec_eq_runEvent (i : Instr) (s : State) : exec i s = runEvent (itemStepOf i) (statusOf i) s := by
  cases i <;> rfl

/-- Everything a step can do when it has a next state: one case for each kind of event. -/
theorem step_next {s t : State} (h : step s = .next t) :
    (∃ op rest, s.pending = .start op :: rest ∧ s.busy = false ∧ t = (s.setPending rest).openFrame op) ∨
    (∃ v rest, s.pending = .item v :: rest ∧ s.busy = true ∧
      itemStepOf (decode s.opl) v (s.setPending rest) = some t) ∨
    (∃ rest, s.pending = .endFrame :: rest ∧ s.busy = true ∧
      t = (s.setPending rest).closeFrame (statusOf (decode s.opl) s)) ∨
    (∃ rest, s.pending = .reset :: rest ∧ t = (s.setPending rest).resetBlock) := by
  unfold step at h
  split at h
  case h_2 => exact .inr (.inr (.inr (unserved_next h)))
  case h_1 i hi =>
    rw [exec_eq_runEvent] at h
    obtain ⟨op, rest, hp, hb, ht⟩ | ⟨v, rest, hp, hb, ht⟩ | ⟨rest, hp, hb, ht⟩ | hr := runEvent_next h
    · exact .inl ⟨op, rest, hp, hb, ht⟩
    · simp [State.selected, hp, hb] at hi
      subst hi
      exact .inr (.inl ⟨v, rest, hp, hb, ht⟩)
    · simp [State.selected, hp, hb] at hi
      subst hi
      exact .inr (.inr (.inl ⟨rest, hp, hb, ht⟩))
    · exact .inr (.inr (.inr hr))

/-- One more step of a host's run, by what the step answers. -/
theorem hostRun_next (M : Host.Core) (k : Nat) (s t : M.State) (h : M.step s = .next t) :
    M.run (k + 1) s = M.run k t := by rw [Host.Core.run, h]

theorem hostRun_fault (M : Host.Core) (k : Nat) (s : M.State) (f : M.Fault) (h : M.step s = .fault f) :
    M.run (k + 1) s = .fault f := by rw [Host.Core.run, h]

theorem hostRun_refused (M : Host.Core) (k : Nat) (s : M.State) (r : M.Refusal) (h : M.step s = .refused r) :
    M.run (k + 1) s = .refused r := by rw [Host.Core.run, h]

/-- The host's run of this machine is `runSteps`. -/
theorem core_run_eq_runSteps (k : Nat) (s : State) : Sys2Proof.core.run k s = runSteps k s := by
  induction k generalizing s with
  | zero => rfl
  | succ k ih =>
    unfold runSteps
    cases hs : step s with
    | next t => exact (hostRun_next Sys2Proof.core k s t hs).trans (ih t)
    | fault f => exact hostRun_fault Sys2Proof.core k s f hs
    | refused r => exact hostRun_refused Sys2Proof.core k s r hs

/-- A run of `k + 1` steps whose first has a next state. -/
theorem runSteps_succ {s t : State} (k : Nat) (h : step s = .next t) : runSteps (k + 1) s = runSteps k t := by
  simp [runSteps, h]

/-- Runs are put together one after the other. -/
theorem runSteps_add {s t : State} (j k : Nat) (h : runSteps j s = .next t) :
    runSteps (j + k) s = runSteps k t := by
  induction j generalizing s with
  | zero => simp [runSteps] at h; subst h; simp
  | succ j ih =>
    rw [Nat.succ_add]
    cases hs : step s with
    | next u => rw [runSteps_succ _ hs] at h ⊢; exact ih h
    | fault f => simp [runSteps, hs] at h
    | refused r => simp [runSteps, hs] at h

end Sys2Proof.Machine
end

