-- ==== Sys2Proof/Tests/Slice0.lean ====
section
/-! SUPPORT. Tests of this model. Expected results are those of spec/95_test_vectors.md (the id stands beside each) or
of the rule named; `witness_…` theorems show a concrete state that meets the hypotheses of the obligation so named. -/

namespace Sys2Proof.Tests

open Sys2Proof.Machine

/-! ## Helpers -/

/-- The state after reset with the given events to come. -/
def idle (es : List Event) : State := { State.reset with pending := es }

/-- A state inside a frame of code `op`. -/
def inFrame (op : BitVec 3) (phase hold : Bit) (es : List Event) : State :=
  { State.reset with busy := true, opl := op, phase := phase, hold := hold, pending := es }

/-- A bit string as the spec writes it: 1 and 0, the first in time at the left. -/
def bits (x : List Nat) : List Item := x.map fun n => .bit (n == 1)

/-- A list of `(I, Q)` pairs as a frame. -/
def symbols (x : List (Int × Int)) : List Item := x.map fun p => .symbol ⟨p.1, p.2⟩

/-- The next state of a step that has one. -/
def nextState : Result → Option State
  | .next s => some s
  | .fault _ => none
  | .refused _ => none

def format8 : Format := ⟨8, 6, rfl⟩
def format3 : Format := ⟨3, 1, rfl⟩

/-! ## Well-formedness: an ill-formed term for each check -/

/-- R6: `W >= 3`, `F >= 1`, `F <= W - 2`. -/
theorem test_format_check : formatLegal 16 14 = true ∧ formatLegal 3 1 = true ∧ formatLegal 2 1 = false ∧
    formatLegal 16 0 = false ∧ formatLegal 16 15 = false := by decide

/-- R22: -32768 to 32767 at W = 16. -/
theorem test_sample_range : sampleInRange 16 (-32768) = true ∧ sampleInRange 16 32767 = true ∧
    sampleInRange 16 (-32769) = false ∧ sampleInRange 16 32768 = false := by decide

theorem test_symbol_check : (⟨4, 0⟩ : Sys2Proof.Symbol).wf format3 = false ∧
    (⟨0, -5⟩ : Sys2Proof.Symbol).wf format3 = false ∧ (⟨3, -4⟩ : Sys2Proof.Symbol).wf format3 = true := by decide

theorem test_item_check : (Item.symbol ⟨32768, 0⟩).wf Format.standard = false ∧
    (Item.bit true).wf Format.standard = true := by decide

/-- R44, U10. -/
theorem test_item_type_check :
    Instr.accepts Format.standard .menc (.symbol ⟨0, 0⟩) = false ∧
    Instr.accepts Format.standard .mdec (.symbol ⟨0, 0⟩) = false ∧
    Instr.accepts Format.standard .mapb (.symbol ⟨0, 0⟩) = false ∧
    Instr.accepts Format.standard .mapq (.symbol ⟨0, 0⟩) = false ∧
    Instr.accepts Format.standard .detb (.bit true) = false ∧
    Instr.accepts Format.standard .detq (.bit true) = false ∧
    Instr.accepts Format.standard (.reserved true) (.symbol ⟨40000, 0⟩) = false ∧
    Instr.accepts Format.standard (.reserved true) (.bit true) = true := by decide

theorem test_frame_check :
    Instr.acceptsFrame Format.standard .menc [.bit true, .symbol ⟨0, 0⟩] = false ∧
    Instr.acceptsFrame Format.standard .menc [] = true := by decide

/-- R43: a second START, an ITEM or END with no frame open. -/
theorem test_event_check :
    eventsWf Format.standard none [.start 0b000#3, .start 0b000#3] = false ∧
    eventsWf Format.standard none [.item (.bit true)] = false ∧
    eventsWf Format.standard none [.endFrame] = false ∧
    eventsWf Format.standard none [.start 0b001#3, .item (.bit true), .reset, .start 0b110#3, .endFrame] = true := by
  decide

/-! ## Decoding: each word written out from R60 and R62 -/

/-- Manchester unit: UNIT 00, VAR 0 and 1. -/
theorem test_decode_manchester : decode (0b00#2 ++ 0b0#1) = .menc ∧ decode (0b00#2 ++ 0b1#1) = .mdec := by decide

/-- Mapper: UNIT 01. -/
theorem test_decode_mapper : decode (0b01#2 ++ 0b0#1) = .mapb ∧ decode (0b01#2 ++ 0b1#1) = .mapq := by decide

/-- Detector: UNIT 10. -/
theorem test_decode_detector : decode (0b10#2 ++ 0b0#1) = .detb ∧ decode (0b10#2 ++ 0b1#1) = .detq := by decide

/-- Reserved: UNIT 11. -/
theorem test_decode_reserved :
    decode (0b11#2 ++ 0b0#1) = .reserved false ∧ decode (0b11#2 ++ 0b1#1) = .reserved true := by decide

/-- A table word of 8 bits (log 10): no bit above bit 2. -/
theorem test_decode_table_word : decodeTableWord 8 0b101 = some .detq ∧ decodeTableWord 8 0b1000 = none ∧
    decodeTableWord 3 0b011 = some .mapq ∧ decodeTableWord 0 0 = none := by decide

/-- A command placed after reset is what the next step runs: it opens its frame. -/
theorem test_fetch_word : step (State.reset.withFetchWord 8 0b011) = .next (inFrame 0b011#3 false false []) := by
  rfl

/-! ## Steps -/

/-- VE5, the first ITEM of `MENC "01"`. -/
theorem test_menc_item : step (inFrame 0b000#3 false false [.item (.bit false)]) =
    .next { inFrame 0b000#3 false false [] with out := bits [0, 1] } := by rfl

/-- VS2: an MDEC frame of one bit ends with status 1. -/
theorem test_mdec_odd_end : step (inFrame 0b001#3 true true [.endFrame]) =
    .next { State.reset with opl := 0b001#3, hold := true, reports := [⟨[], some .invalidBitLength⟩] } := by rfl

/-- VB2: `MAPB "0"` is (0xC000, 0x0000). -/
theorem test_mapb_item : step (inFrame 0b010#3 false false [.item (.bit false)]) =
    .next { inFrame 0b010#3 false false [] with out := symbols [(-16384, 0)] } := by rfl

/-- VS4: the second ITEM of a pair (0, 1). -/
theorem test_mapq_second_item : nextState (step (inFrame 0b011#3 true false [.item (.bit true)])) =
    some { inFrame 0b011#3 false false [] with out := symbols [(-11585, 11585)] } := by decide +kernel

/-- VD3: I = -1 decides 0, Q is ignored. -/
theorem test_detb_item : step (inFrame 0b100#3 false false [.item (.symbol ⟨-1, 32767⟩)]) =
    .next { inFrame 0b100#3 false false [] with out := bits [0] } := by rfl

/-- VS9: `ITEM((0, -1))` of a DETQ frame emits 1, 0. -/
theorem test_detq_item : step (inFrame 0b101#3 false false [.item (.symbol ⟨0, -1⟩)]) =
    .next { inFrame 0b101#3 false false [] with out := bits [1, 0] } := by rfl

/-- VS5: the END of a sink frame delivers status 2. -/
theorem test_reserved_end : step (inFrame 0b110#3 false false [.endFrame]) =
    .next { State.reset with opl := 0b110#3, reports := [⟨[], some .illegalOp⟩] } := by rfl

/-! ## Frames -/

/-- T2: the coded bits of "AB". -/
theorem test_menc_frame : execFrame Format.standard .menc (bits [0,1,0,0,0,0,0,1, 0,1,0,0,0,0,1,0]) =
    some (.ok (bits [0,1,1,0,0,1,0,1, 0,1,0,1,0,1,1,0, 0,1,1,0,0,1,0,1, 0,1,0,1,1,0,0,1])) := by decide

/-- VM8 and VM12. -/
theorem test_mdec_frame :
    execFrame Format.standard .mdec (bits [0,0,0,1,1,0,1,1]) = some (.ok (bits [0,0,1,1])) ∧
    execFrame Format.standard .mdec (bits [1,1,0]) = some (.fault .invalidBitLength) := by decide

/-- VB4, and VB5 and VB6 at the other two formats of the vectors. -/
theorem test_mapb_frame :
    execFrame Format.standard .mapb (bits [1,0,1]) =
      some (.ok (symbols [(16384, 0), (-16384, 0), (16384, 0)])) ∧
    execFrame format8 .mapb (bits [1]) = some (.ok (symbols [(64, 0)])) ∧
    execFrame format3 .mapb (bits [0]) = some (.ok (symbols [(-2, 0)])) := by decide

/-- VQ10, and VQ8 and VQ9 at the other two formats (0xD3 at W = 8 is -45). -/
theorem test_mapq_frame :
    execFrame Format.standard .mapq (bits [0,1,1,1]) =
      some (.ok (symbols [(-11585, 11585), (11585, 11585)])) ∧
    execFrame format8 .mapq (bits [1,0]) = some (.ok (symbols [(45, -45)])) ∧
    execFrame format3 .mapq (bits [0,1]) = some (.ok (symbols [(-1, 1)])) := by decide +kernel

/-- VD4: the ends of the range. -/
theorem test_detb_frame : execFrame Format.standard .detb (symbols [(32767, -32768), (-32768, 32767)]) =
    some (.ok (bits [1, 0])) := by decide

/-- VD9. -/
theorem test_detq_frame : execFrame Format.standard .detq (symbols [(-1, 0), (0, -1), (-1, -1)]) =
    some (.ok (bits [0,1,1,0,0,0])) := by decide

/-- P4: the odd item count of a sink frame plays no part. -/
theorem test_reserved_frame : execFrame Format.standard (.reserved false) (bits [1,0,1,1,0]) =
    some (.fault .illegalOp) := by decide

/-- VC4 and VC5. -/
theorem test_receive_chains :
    execRxb Format.standard (symbols [(5, 0)]) = some (.fault .invalidBitLength) ∧
    execRxq Format.standard (symbols [(-7, -7)]) = some (.ok (bits [0])) := by decide

/-- VC1 and VC2. -/
theorem test_transmit_chains :
    execTxb Format.standard (bits [1, 0]) =
      some (.ok (symbols [(16384, 0), (-16384, 0), (-16384, 0), (16384, 0)])) ∧
    execTxq Format.standard (bits [1, 0]) = some (.ok (symbols [(11585, -11585), (-11585, 11585)])) := by decide +kernel

/-- R93, the table of `AQ`. -/
theorem test_aq_table :
    (List.map aqNat [1, 2, 3, 4, 5, 6, 7, 8, 9, 10]) = [1, 3, 6, 11, 23, 45, 91, 181, 362, 724] ∧
    (List.map aqNat [11, 12, 13, 14, 15, 16]) = [1448, 2896, 5793, 11585, 23170, 46341] := by decide

/-- T2 packed, VQ4 packed, and the pad of a last partial byte (R49). -/
theorem test_packing :
    packBits ([0,1,1,0,0,1,0,1, 0,1,0,1,0,1,1,0].map (· == 1)) = [0x65#8, 0x56#8] ∧
    packBits ([1,0,1].map (· == 1)) = [0xA0#8] ∧
    packSymbol 16 ⟨11585, -11585⟩ = 0x2D41D2BF#32 ∧ packGroup true false = 0b10#2 := by decide

/-! ## Witnesses of hypotheses -/

theorem witness_StepRunsSelectedOperation :
    ((idle [.start 0b111#3]).pending = .start 0b111#3 :: [] ∧ (idle [.start 0b111#3]).busy = false) ∧
    ((inFrame 0b000#3 false false [.item (.bit true)]).pending = .item (.bit true) :: [] ∧
      (inFrame 0b000#3 false false [.item (.bit true)]).busy = true) ∧
    ((inFrame 0b101#3 false false [.endFrame]).pending = .endFrame :: [] ∧
      (inFrame 0b101#3 false false [.endFrame]).busy = true) := ⟨⟨rfl, rfl⟩, ⟨rfl, rfl⟩, rfl, rfl⟩

theorem witness_StartLatchesOperation :
    (idle [.start 0b111#3]).busy = false ∧ (idle [.start 0b111#3]).pending = .start 0b111#3 :: [] := ⟨rfl, rfl⟩

theorem witness_EndDeliversStatus :
    (inFrame 0b011#3 true false [.endFrame]).busy = true ∧
    (inFrame 0b011#3 true false [.endFrame]).pending = .endFrame :: [] := ⟨rfl, rfl⟩

/-- One state for the four operations on bits: `MencItemStep`, `MapbItemStep`, and `MdecItemStep`, `MapqItemStep` at
both values of PHASE. -/
theorem witness_BitItemSteps :
    (inFrame 0b000#3 false false [.item (.bit true)]).busy = true ∧
    (inFrame 0b000#3 false false [.item (.bit true)]).pending = .item (.bit true) :: [] ∧
    (inFrame 0b010#3 false false [.item (.bit false)]).busy = true ∧
    (inFrame 0b010#3 false false [.item (.bit false)]).pending = .item (.bit false) :: [] ∧
    (inFrame 0b001#3 false false [.item (.bit true)]).phase = false ∧
    (inFrame 0b001#3 true false [.item (.bit true)]).phase = true ∧
    (inFrame 0b001#3 true false [.item (.bit true)]).busy = true ∧
    (inFrame 0b011#3 true true [.item (.bit true)]).phase = true ∧
    (inFrame 0b011#3 false true [.item (.bit true)]).phase = false ∧
    (inFrame 0b011#3 true true [.item (.bit true)]).pending = .item (.bit true) :: [] :=
  ⟨rfl, rfl, rfl, rfl, rfl, rfl, rfl, rfl, rfl, rfl⟩

/-- `DetbItemStep`, `DetqItemStep` at the ends of the sample range. -/
theorem witness_SymbolItemSteps :
    (inFrame 0b100#3 false false [.item (.symbol ⟨-32768, 32767⟩)]).busy = true ∧
    (inFrame 0b101#3 false false [.item (.symbol ⟨-32768, 32767⟩)]).busy = true ∧
    (inFrame 0b101#3 false false [.item (.symbol ⟨-32768, 32767⟩)]).pending =
      .item (.symbol ⟨-32768, 32767⟩) :: [] ∧
    sampleInRange (inFrame 0b100#3 false false []).fmt.w (-32768) = true ∧
    sampleInRange (inFrame 0b100#3 false false []).fmt.w 32767 = true := by
  refine ⟨rfl, rfl, rfl, by decide, by decide⟩

theorem witness_ReservedItemStep :
    (inFrame 0b111#3 false false [.item (.symbol ⟨5, -5⟩)]).busy = true ∧
    (inFrame 0b111#3 false false [.item (.symbol ⟨5, -5⟩)]).pending = .item (.symbol ⟨5, -5⟩) :: [] ∧
    (Item.symbol ⟨5, -5⟩).wf (inFrame 0b111#3 false false [.item (.symbol ⟨5, -5⟩)]).fmt = true :=
  ⟨rfl, rfl, by decide⟩

/-- Both sides of the equivalence occur for items of the wrong type (R44, U10): a symbol and a bit to MENC, DETB and
DETQ, and either to a sink frame. -/
theorem witness_WrongItemTypeRefused :
    exec .menc (inFrame 0b000#3 false false [.item (.symbol ⟨0, 0⟩)]) = .refused .itemWrongType ∧
    exec .menc (inFrame 0b000#3 false false [.item (.bit true)]) =
      .next { inFrame 0b000#3 false false [] with out := bits [1, 0] } ∧
    exec .detb (inFrame 0b100#3 false false [.item (.bit true)]) = .refused .itemWrongType ∧
    exec .detq (inFrame 0b101#3 false false [.item (.bit true)]) = .refused .itemWrongType ∧
    exec (.reserved false) (inFrame 0b110#3 false false [.item (.bit true)]) =
      .next (inFrame 0b110#3 false false []) := ⟨rfl, rfl, rfl, rfl, rfl⟩

/-- `WrongItemTypeRefused` one past each end of the range of 16 bits, in either component, and at the ends (R22;
log 9). -/
theorem witness_OutOfFormatRefused :
    exec .detb (inFrame 0b100#3 false false [.item (.symbol ⟨32768, 0⟩)]) = .refused .itemWrongType ∧
    exec .detq (inFrame 0b101#3 false false [.item (.symbol ⟨0, -32769⟩)]) = .refused .itemWrongType ∧
    exec (.reserved true) (inFrame 0b111#3 false false [.item (.symbol ⟨-32769, 0⟩)]) =
      .refused .itemWrongType ∧
    exec .detq (inFrame 0b101#3 false false [.item (.symbol ⟨32767, -32768⟩)]) =
      .next { inFrame 0b101#3 false false [] with out := bits [1, 0] } ∧
    exec (.reserved true) (inFrame 0b111#3 false false [.item (.symbol ⟨-32768, 32767⟩)]) =
      .next (inFrame 0b111#3 false false []) := ⟨rfl, rfl, rfl, rfl, rfl⟩

theorem witness_EventsOutOfPlaceRefused :
    step (inFrame 0b000#3 false false [.start 0b001#3]) = .refused .startWhileBusy ∧
    step (idle [.item (.bit true)]) = .refused .itemWhileIdle ∧
    step (idle [.endFrame]) = .refused .endWhileIdle ∧
    step State.reset = .refused .noEvent := ⟨rfl, rfl, rfl, rfl⟩

/-- A state inside an MDEC frame has the invariant, RESET being next (`ResetMakesIdle`). -/
theorem witness_ResetMakesIdle :
    (inFrame 0b001#3 true true [.reset]).pending = .reset :: [] ∧ (inFrame 0b001#3 true true [.reset]).Inv :=
  ⟨rfl, ⟨by decide, by decide, by decide⟩⟩

/-- A step with a next state for each kind of event, from states with the invariant: the hypotheses of
`BusyMarksOpenFrame`, `OplWrittenOnlyByStart`, `PhaseIsGroupPosition`, `HoldWrittenOnlyByFirstBit`,
`EmitsOnlyInItemSteps`, `StatusOnlyAtEnd`, `StepConsumesOneEvent` and `StepKeepsInvariant`. -/
theorem witness_StepsOfEachEvent :
    ((idle [.start 0b001#3]).Inv ∧
      step (idle [.start 0b001#3]) = .next (inFrame 0b001#3 false false [])) ∧
    ((inFrame 0b001#3 false false [.item (.bit true)]).Inv ∧
      step (inFrame 0b001#3 false false [.item (.bit true)]) = .next (inFrame 0b001#3 true true [])) ∧
    ((inFrame 0b001#3 true true [.item (.bit false)]).Inv ∧
      step (inFrame 0b001#3 true true [.item (.bit false)]) =
        .next { inFrame 0b001#3 false true [] with out := bits [1] }) ∧
    ((inFrame 0b001#3 true true [.endFrame]).Inv ∧
      step (inFrame 0b001#3 true true [.endFrame]) = .next
        { State.reset with opl := 0b001#3, hold := true, reports := [⟨[], some .invalidBitLength⟩] }) ∧
    ((inFrame 0b001#3 true true [.reset]).Inv ∧
      step (inFrame 0b001#3 true true [.reset]) = .next (inFrame 0b001#3 true true []).resetBlock) :=
  ⟨⟨⟨by decide, by decide, by decide⟩, rfl⟩, ⟨⟨by decide, by decide, by decide⟩, rfl⟩,
    ⟨⟨by decide, by decide, by decide⟩, rfl⟩, ⟨⟨by decide, by decide, by decide⟩, rfl⟩,
    ⟨⟨by decide, by decide, by decide⟩, rfl⟩⟩

/-- `HoldReadOnlyAtSecondBit`: at PHASE 0 of an MDEC frame the excluded case does not hold, and the step answers. -/
theorem witness_HoldReadOnlyAtSecondBit :
    (¬ ∃ v rest, (inFrame 0b001#3 false true [.item (.bit false)]).pending = .item v :: rest ∧
      (inFrame 0b001#3 false true [.item (.bit false)]).busy = true ∧
      (inFrame 0b001#3 false true [.item (.bit false)]).phase = true ∧
      ((inFrame 0b001#3 false true [.item (.bit false)]).opl = 0b001#3 ∨
        (inFrame 0b001#3 false true [.item (.bit false)]).opl = 0b011#3)) ∧
    step (inFrame 0b001#3 false true [.item (.bit false)]) = .next (inFrame 0b001#3 true false []) :=
  ⟨by rintro ⟨v, rest, -, -, h, -⟩; exact absurd h (by decide), rfl⟩

theorem witness_PhaseCountsItems :
    decode 0b001#3 = .mdec ∧ decode 0b011#3 = .mapq ∧
    (idle [.start 0b001#3, .item (.bit true)]).busy = false ∧
    (idle [.start 0b001#3, .item (.bit true)]).pending =
      .start 0b001#3 :: ((bitFrame [true]).map .item ++ []) := ⟨by decide, by decide, rfl, rfl⟩

theorem witness_WellFormedEventsAreServed :
    (idle [.start 0b100#3, .item (.symbol ⟨0, 0⟩), .endFrame, .reset]).Served ∧
    4 ≤ (idle [.start 0b100#3, .item (.symbol ⟨0, 0⟩), .endFrame, .reset]).pending.length :=
  ⟨by unfold State.Served; decide, by decide⟩

/-- Both sides of `RefusesExactlyIllFormedEvents` occur. -/
theorem witness_RefusesExactlyIllFormedEvents :
    eventsWf Format.standard (idle [.endFrame]).openOp [.endFrame] = false ∧
    eventsWf Format.standard (idle [.reset]).openOp [.reset] = true := ⟨by decide, by decide⟩

/-- `StepMachineAgreesWithExec`, `SameFrameSameReport`: an MAPQ frame of odd length, its three results being
possible (`test_mapq_frame`, `test_mdec_frame`, `test_reserved_frame`). -/
theorem witness_FrameRuns :
    (idle (frameEvents 0b011#3 (bits [0, 1, 1]) ++ (frameEvents 0b011#3 (bits [0, 1, 1]) ++ []))).busy = false ∧
    (decode 0b011#3).acceptsFrame Format.standard (bits [0, 1, 1]) = true ∧
    (idle (frameEvents 0b011#3 (bits [0, 1, 1]) ++ (frameEvents 0b011#3 (bits [0, 1, 1]) ++ []))).pending =
      frameEvents 0b011#3 (bits [0, 1, 1]) ++ (frameEvents 0b011#3 (bits [0, 1, 1]) ++ []) :=
  ⟨rfl, by decide, rfl⟩

/-- Two idle states that differ in OPL and HOLD (`IdleStatesAreIndistinguishable`). -/
theorem witness_IdleStatesAreIndistinguishable :
    (idle [.start 0b001#3]).Inv ∧
    ({ idle [.start 0b001#3] with opl := 0b110#3, hold := true } : State).Inv ∧
    (idle [.start 0b001#3]).busy = false ∧
    ({ idle [.start 0b001#3] with opl := 0b110#3, hold := true } : State) ≠ idle [.start 0b001#3] :=
  ⟨⟨by decide, by decide, by decide⟩, ⟨by decide, by decide, by decide⟩, rfl, by decide⟩

/-- P5 (`ResetAbandonsOpenFrame`). -/
theorem witness_ResetAbandonsOpenFrame :
    (decode 0b001#3).acceptsFrame Format.standard (bits [1, 0, 1]) = true ∧
    (idle (.start 0b001#3 :: ((bits [1, 0, 1]).map .item ++ .reset :: []))).busy = false := ⟨by decide, rfl⟩

/-- VS5 and VS6 (`ReservedCodesAreSinkFrames`). -/
theorem witness_ReservedCodesAreSinkFrames :
    ([.bit true, .symbol ⟨5, -5⟩] : List Item).all (Item.wf Format.standard) = true ∧
    (idle (frameEvents 0b110#3 [.bit true, .symbol ⟨5, -5⟩] ++ [])).busy = false ∧
    (idle (frameEvents 0b111#3 [] ++ [])).phase = false ∧
    (idle (frameEvents 0b111#3 [] ++ [])).pending = frameEvents 0b111#3 [] ++ [] := ⟨by decide, rfl, rfl, rfl⟩

/-- A bit frame of even and of odd length, the empty one included, with its bits at the last index
(`MencFrameMeaning`, `MdecFrameMeaning`, `MapbFrameMeaning`, `MapqFrameMeaning`, `DetectorInvertsMapper`,
`TxbMeaning`, `TxqMeaning`). -/
theorem witness_BitFrames :
    ([] : List Bit).length % 2 = 0 ∧ [true, false].length % 2 = 0 ∧ [true].length % 2 = 1 ∧
    [true, false][2 * 0]? = some true ∧ [true, false][2 * 0 + 1]? = some false := by decide

/-- A symbol frame at the ends of the range, of odd and of even length (`DetbFrameMeaning`, `DetqFrameMeaning`,
`RxbMeaning`, `RxqMeaning`). -/
theorem witness_SymbolFrames :
    (∀ p ∈ ([⟨-32768, 32767⟩, ⟨0, 0⟩, ⟨-1, 1⟩] : List Sys2Proof.Symbol), p.wf Format.standard = true) ∧
    ([⟨-32768, 32767⟩, ⟨0, 0⟩, ⟨-1, 1⟩] : List Sys2Proof.Symbol).length % 2 = 1 ∧
    ([⟨0, 0⟩, ⟨-1, 1⟩] : List Sys2Proof.Symbol).length % 2 = 0 := by decide

/-- `MapperRange`. -/
theorem witness_MapperRange :
    execFrame Format.standard .mapb (bits [1]) = some (.ok (symbols [(16384, 0)])) ∧
    execFrame Format.standard .mapq (bits [1, 0]) = some (.ok (symbols [(11585, -11585)])) := by decide +kernel

/-- `SignDecisionIsMinimumDistance`: a symbol with a component 0 and one that is not. -/
theorem witness_SignDecisionIsMinimumDistance :
    (⟨0, -7⟩ : Sys2Proof.Symbol).wf Format.standard = true ∧
    execFrame Format.standard .detq [.symbol ⟨0, -7⟩] = some (.ok [.bit true, .bit false]) ∧
    execFrame Format.standard .detb [.symbol ⟨-7, 0⟩] = some (.ok [.bit false]) := by decide

/-- VD5, VD6, VD12 (`NoiseMargin`): the noise at the margin and one past it, for a 1 and for a 0. -/
theorem witness_NoiseMargin :
    (addNoise (bpskPoint Format.standard true) ⟨-16384, 0⟩).wf Format.standard = true ∧
    execFrame Format.standard .detb [.symbol (addNoise (bpskPoint Format.standard true) ⟨-16384, 0⟩)] =
      some (.ok (bits [1])) ∧
    execFrame Format.standard .detb [.symbol (addNoise (bpskPoint Format.standard true) ⟨-16385, 0⟩)] =
      some (.ok (bits [0])) ∧
    (addNoise (qpskPoint Format.standard true false) ⟨-11586, 11585⟩).wf Format.standard = true ∧
    execFrame Format.standard .detq
        [.symbol (addNoise (qpskPoint Format.standard true false) ⟨-11585, 11584⟩)] =
      some (.ok (bits [1, 0])) ∧
    execFrame Format.standard .detq
        [.symbol (addNoise (qpskPoint Format.standard true false) ⟨-11586, 11585⟩)] =
      some (.ok (bits [0, 1])) := by decide

/-- `AmplitudeIsWordNegation`, `SampleWordsAndPackedSymbols`: both ends of the range of 16 bits, and 0xD2BF. -/
theorem witness_SampleWords :
    sampleInRange 16 (-32768) = true ∧ sampleInRange 16 32767 = true ∧
    sampleWord 16 (amp false (aq Format.standard)) = 0xD2BF#16 ∧ aq Format.standard = 11585 := by decide

/-- P2 (`NoisyLinkDecodesByFirstNoise`): the sent symbols, noise of the same length, the sum in range. -/
theorem witness_NoisyLink :
    execTxq Format.standard (bitFrame [true, false]) =
      some (.ok (symbolFrame [⟨11585, -11585⟩, ⟨-11585, 11585⟩])) ∧
    execTxb Format.standard (bitFrame [true]) = some (.ok (symbolFrame [⟨16384, 0⟩, ⟨-16384, 0⟩])) ∧
    (∀ p ∈ List.zipWith addNoise [⟨11585, -11585⟩, ⟨-11585, 11585⟩] [⟨-11586, 0⟩, ⟨0, -12000⟩],
      p.wf Format.standard = true) ∧
    (∀ p ∈ List.zipWith addNoise [⟨16384, 0⟩, ⟨-16384, 0⟩] [⟨-16384, 0⟩, ⟨1, 0⟩],
      p.wf Format.standard = true) := by decide +kernel

/-- VC7 and VC8 (`FramesCutAtGroupBoundaries`). -/
theorem witness_FramesCut :
    (bits [0, 1]).length % groupSize .mdec = 0 ∧
    execFrame Format.standard .mdec (bits [0, 1]) = some (.ok (bits [0])) ∧
    execFrame Format.standard .mdec (bits [1, 0]) = some (.ok (bits [1])) ∧
    [false].length % 2 = 1 := by decide

end Sys2Proof.Tests
end

section
/-! What one step leaves unchanged: the ITEM steps write only `out`, `PHASE` and `HOLD`, and a step consumes exactly
one event (spec/00_scope.md R12, spec/10_state.md R33). -/

namespace Sys2Proof.Machine

@[simp] theorem State.emit_nil (s : State) : s.emit [] = s := by
  simp [State.emit]

section PairStep
variable (output : Bit → Bit → List Item) (b : Bit) (s : State)

/-- A pair step writes nothing that neither of its two halves writes. -/
theorem State.pairStep_field {α : Type} (field : State → α)
    (hFirst : field ((s.setHold b).setPhase true) = field s)
    (hSecond : field ((s.emit (output s.hold b)).setPhase false) = field s) :
    field (s.pairStep output b) = field s := by
  cases hp : s.phase with
  | false => rw [State.pairStep_first output b hp, hFirst]
  | true => rw [State.pairStep_second output b hp, hSecond]

@[simp] theorem State.pairStep_fmt : (s.pairStep output b).fmt = s.fmt :=
  s.pairStep_field output b State.fmt rfl rfl

@[simp] theorem State.pairStep_busy : (s.pairStep output b).busy = s.busy :=
  s.pairStep_field output b State.busy rfl rfl

@[simp] theorem State.pairStep_opl : (s.pairStep output b).opl = s.opl :=
  s.pairStep_field output b State.opl rfl rfl

@[simp] theorem State.pairStep_pending : (s.pairStep output b).pending = s.pending :=
  s.pairStep_field output b State.pending rfl rfl

@[simp] theorem State.pairStep_reports : (s.pairStep output b).reports = s.reports :=
  s.pairStep_field output b State.reports rfl rfl

@[simp] theorem State.pairStep_free : (s.pairStep output b).free = s.free :=
  s.pairStep_field output b State.free rfl rfl

end PairStep

/-- Everything an ITEM step can do: `MDEC` and `MAPQ` assemble a pair, every other command only emits (a sink frame
emits nothing). -/
theorem itemStepOf_some {i : Instr} {v : Item} {s t : State} (h : itemStepOf i v s = some t) :
    ((i = .mdec ∨ i = .mapq) ∧ ∃ output b, t = s.pairStep output b) ∨
    (i ≠ .mdec ∧ i ≠ .mapq ∧ ∃ ys, t = s.emit ys) := by
  cases i with
  | mdec | mapq =>
    obtain ⟨b, -, rfl⟩ := Option.map_eq_some_iff.mp h
    exact .inl ⟨by simp, _, b, rfl⟩
  | menc | mapb | detb | detq =>
    obtain ⟨_, -, rfl⟩ := Option.map_eq_some_iff.mp h
    exact .inr ⟨by simp, by simp, _, rfl⟩
  | reserved _ =>
    obtain ⟨_, -, rfl⟩ := Option.map_eq_some_iff.mp h
    exact .inr ⟨by simp, by simp, [], (State.emit_nil _).symm⟩

/-- What every ITEM step leaves unchanged. -/
theorem itemStepOf_frame {i : Instr} {v : Item} {s t : State} (h : itemStepOf i v s = some t) :
    t.fmt = s.fmt ∧ t.busy = s.busy ∧ t.opl = s.opl ∧ t.pending = s.pending ∧ t.reports = s.reports ∧
      t.free = s.free := by
  obtain ⟨-, output, b, rfl⟩ | ⟨-, -, ys, rfl⟩ := itemStepOf_some h <;> simp

/-- RESET adds at most one report, that of the frame it cuts short (R182). -/
theorem State.resetBlock_reports_append (s : State) :
    s.resetBlock.reports = s.reports ++ if s.busy then [⟨s.out, none⟩] else [] := by
  cases h : s.busy <;> simp [h]

/-- Settles O24, by the kind of event the step consumes: START and ITEM add no report, END adds one, RESET at most
one. -/
theorem stepConsumesOneEvent : Obligations.StepConsumesOneEvent := by
  unfold Obligations.StepConsumesOneEvent
  intro s t h
  obtain ⟨op, rest, hp, -, rfl⟩ | ⟨v, rest, hp, -, hitem⟩ | ⟨rest, hp, -, rfl⟩ | ⟨rest, hp, rfl⟩ := step_next h
  case inl => exact ⟨⟨_, hp⟩, rfl, [], by simp⟩
  case inr.inl =>
    obtain ⟨hfmt, -, -, hpending, hreports, -⟩ := itemStepOf_frame hitem
    exact ⟨⟨_, by rw [hp, hpending]; rfl⟩, hfmt, [], by simp [hreports]⟩
  case inr.inr.inl => exact ⟨⟨_, hp⟩, rfl, _, rfl⟩
  case inr.inr.inr => exact ⟨⟨_, hp⟩, rfl, _, (s.setPending rest).resetBlock_reports_append⟩

end Sys2Proof.Machine
end

section
/-! `BUSY` (spec/10_state.md R23), and why idle states cannot be told apart (R34): the relation `Alike` of two states
that agree on everything that the rest of a run can read is kept by every step. -/

namespace Sys2Proof.Machine

/-- Settles O16, by the kind of event the step consumes. -/
theorem busyMarksOpenFrame : Obligations.BusyMarksOpenFrame := by
  unfold Obligations.BusyMarksOpenFrame
  refine ⟨rfl, fun s t e rest hp h => ?_⟩
  obtain ⟨op, rest', hp', -, rfl⟩ | ⟨v, rest', hp', -, hitem⟩ | ⟨rest', hp', -, rfl⟩ | ⟨rest', hp', rfl⟩ := step_next h
  all_goals
    obtain ⟨rfl, rfl⟩ := List.cons.inj (hp.symm.trans hp')
  case inl | inr.inr.inl | inr.inr.inr => rfl
  case inr.inl =>
    obtain ⟨-, hbusy, -⟩ := itemStepOf_frame hitem
    exact hbusy

/-- Two states that agree on what the rest of a run can read: `OPL` counts only in an open frame, `HOLD` only in an
open pair. Since their records began as `p₁` and `p₂`, the same reports have been added to both. -/
structure Alike (p₁ p₂ : List Report) (s₁ s₂ : State) : Prop where
  fmt : s₁.fmt = s₂.fmt
  pending : s₁.pending = s₂.pending
  busy : s₁.busy = s₂.busy
  phase : s₁.phase = s₂.phase
  out : s₁.out = s₂.out
  opl : s₁.busy = true → s₁.opl = s₂.opl
  hold : s₁.phase = true → s₁.hold = s₂.hold
  reports : ∃ d, s₁.reports = p₁ ++ d ∧ s₂.reports = p₂ ++ d

/-- Two results that cannot be told apart: next states that are alike, or refusals for one reason. -/
inductive AlikeResults (p₁ p₂ : List Report) : Result → Result → Prop where
  | next {t₁ t₂ : State} (h : Alike p₁ p₂ t₁ t₂) : AlikeResults p₁ p₂ (.next t₁) (.next t₂)
  | refused (r : Refusal) : AlikeResults p₁ p₂ (.refused r) (.refused r)

section Alike
variable {p₁ p₂ : List Report} {s₁ s₂ : State}

/-- At `BUSY = 0` neither `OPL` nor `HOLD` counts, so idle states are alike (R34). -/
theorem Alike.of_idle (hinv₁ : s₁.Inv) (hinv₂ : s₂.Inv) (hb₁ : s₁.busy = false) (hb₂ : s₂.busy = false)
    (hfmt : s₁.fmt = s₂.fmt) (hp : s₁.pending = s₂.pending) : Alike s₁.reports s₂.reports s₁ s₂ where
  fmt := hfmt
  pending := hp
  busy := hb₁.trans hb₂.symm
  phase := (hinv₁.idle_phase hb₁).trans (hinv₂.idle_phase hb₂).symm
  out := (hinv₁.idle_out hb₁).trans (hinv₂.idle_out hb₂).symm
  opl h := by simp [hb₁] at h
  hold h := by simp [hinv₁.idle_phase hb₁] at h
  reports := ⟨[], by simp, by simp⟩

/-- Adding the same reports to the records of alike states keeps what has been added to both the same. -/
theorem Alike.reports_append (h : Alike p₁ p₂ s₁ s₂) (r : List Report) :
    ∃ d, s₁.reports ++ r = p₁ ++ d ∧ s₂.reports ++ r = p₂ ++ d := by
  obtain ⟨d, h₁, h₂⟩ := h.reports
  exact ⟨d ++ r, by simp [h₁], by simp [h₂]⟩

theorem Alike.setPending (h : Alike p₁ p₂ s₁ s₂) (es : List Event) :
    Alike p₁ p₂ (s₁.setPending es) (s₂.setPending es) :=
  { h with pending := rfl }

theorem Alike.emit (h : Alike p₁ p₂ s₁ s₂) (ys : List Item) : Alike p₁ p₂ (s₁.emit ys) (s₂.emit ys) :=
  { h with out := by simp [h.out] }

theorem Alike.holdBit (h : Alike p₁ p₂ s₁ s₂) (b : Bit) :
    Alike p₁ p₂ ((s₁.setHold b).setPhase true) ((s₂.setHold b).setPhase true) :=
  { h with phase := rfl, hold := fun _ => rfl }

theorem Alike.clearPhase (h : Alike p₁ p₂ s₁ s₂) : Alike p₁ p₂ (s₁.setPhase false) (s₂.setPhase false) :=
  { h with phase := rfl, hold := by simp }

theorem Alike.openFrame (h : Alike p₁ p₂ s₁ s₂) (op : BitVec 3) :
    Alike p₁ p₂ (s₁.openFrame op) (s₂.openFrame op) :=
  { h with busy := rfl, phase := rfl, out := rfl, opl := fun _ => rfl, hold := by simp }

theorem Alike.closeFrame (h : Alike p₁ p₂ s₁ s₂) (st : Status) :
    Alike p₁ p₂ (s₁.closeFrame st) (s₂.closeFrame st) :=
  { h with
    busy := rfl, phase := rfl, out := rfl, opl := by simp, hold := by simp
    reports := by simpa [h.out] using h.reports_append [⟨s₁.out, some st⟩] }

/-- RESET leaves `OPL` and `HOLD` unspecified (R181), in two states that are idle afterwards. -/
theorem Alike.resetBlock (h : Alike p₁ p₂ s₁ s₂) : Alike p₁ p₂ s₁.resetBlock s₂.resetBlock :=
  { h with
    busy := rfl, phase := rfl, out := rfl, opl := by simp, hold := by simp
    reports := by
      rw [State.resetBlock_reports_append, State.resetBlock_reports_append, ← h.busy, ← h.out]
      exact h.reports_append _ }

/-- A pair step reads `HOLD` only at `PHASE = 1`, where alike states hold the same bit. -/
theorem Alike.pairStep (h : Alike p₁ p₂ s₁ s₂) (output : Bit → Bit → List Item) (b : Bit) :
    Alike p₁ p₂ (s₁.pairStep output b) (s₂.pairStep output b) := by
  cases hp : s₁.phase with
  | false =>
    rw [State.pairStep_first _ _ hp, State.pairStep_first _ _ (h.phase ▸ hp)]
    exact h.holdBit b
  | true =>
    rw [State.pairStep_second _ _ hp, State.pairStep_second _ _ (h.phase ▸ hp), ← h.hold hp]
    exact (h.emit _).clearPhase

/-- What `take()` answers is the same in both states; only what is done with it has to be alike. -/
theorem optionRel_map {α β γ : Type} {R : β → γ → Prop} {f : α → β} {g : α → γ} (o : Option α)
    (h : ∀ a, R (f a) (g a)) : Option.Rel R (o.map f) (o.map g) := by
  cases o with
  | none => exact .none
  | some a => exact .some (h a)

theorem Alike.itemStepOf_rel (h : Alike p₁ p₂ s₁ s₂) (i : Instr) (v : Item) :
    Option.Rel (Alike p₁ p₂) (itemStepOf i v s₁) (itemStepOf i v s₂) := by
  cases i with
  | menc => exact optionRel_map _ fun _ => h.emit _
  | mdec => exact optionRel_map _ fun _ => h.pairStep _ _
  | mapb | detb | detq =>
    simp only [itemStepOf, mapbItem, detbItem, detqItem, h.fmt]
    exact optionRel_map _ fun _ => h.emit _
  | mapq =>
    simp only [itemStepOf, mapqItem, h.fmt]
    exact optionRel_map _ fun _ => h.pairStep _ _
  | reserved _ =>
    simp only [itemStepOf, reservedItem, h.fmt]
    exact optionRel_map _ fun _ => h

theorem Alike.statusOf_eq (h : Alike p₁ p₂ s₁ s₂) (i : Instr) : statusOf i s₁ = statusOf i s₂ := by
  cases i with
  | mdec | mapq => simp [statusOf, statusPaired, h.phase]
  | menc | mapb | detb | detq | reserved _ => rfl

theorem Alike.selected_eq (h : Alike p₁ p₂ s₁ s₂) : s₁.selected = s₂.selected := by
  unfold State.selected
  rw [← h.pending, ← h.busy]
  cases hb : s₁.busy with
  | false => rfl
  | true => rw [h.opl hb]

theorem Alike.unserved_alike (h : Alike p₁ p₂ s₁ s₂) : AlikeResults p₁ p₂ (unserved s₁) (unserved s₂) := by
  unfold unserved
  rw [← h.pending]
  split
  case h_2 rest _ => exact .next (h.setPending rest).resetBlock
  all_goals exact .refused _

theorem Alike.exec_alike (h : Alike p₁ p₂ s₁ s₂) (i : Instr) : AlikeResults p₁ p₂ (exec i s₁) (exec i s₂) := by
  rw [exec_eq_runEvent, exec_eq_runEvent]
  unfold runEvent
  rw [← h.pending, ← h.busy, ← h.statusOf_eq]
  split
  case h_1 op rest _ =>
    split
    · exact h.unserved_alike
    · exact .next ((h.setPending rest).openFrame op)
  case h_2 v rest _ =>
    split
    · have hitem := (h.setPending rest).itemStepOf_rel i v
      generalize itemStepOf i v (s₁.setPending rest) = o₁ at hitem ⊢
      generalize itemStepOf i v (s₂.setPending rest) = o₂ at hitem ⊢
      cases hitem with
      | none => exact .refused _
      | some ht => exact .next ht
    · exact h.unserved_alike
  case h_3 rest _ =>
    split
    · exact .next ((h.setPending rest).closeFrame _)
    · exact h.unserved_alike
  all_goals exact h.unserved_alike

/-- One step of the bisimulation. -/
theorem Alike.step_alike (h : Alike p₁ p₂ s₁ s₂) : AlikeResults p₁ p₂ (step s₁) (step s₂) := by
  unfold step
  rw [← h.selected_eq]
  cases s₁.selected with
  | none => exact h.unserved_alike
  | some i => exact h.exec_alike i

end Alike

theorem Alike.runSteps_alike {p₁ p₂ : List Report} (k : Nat) {s₁ s₂ : State} (h : Alike p₁ p₂ s₁ s₂) :
    AlikeResults p₁ p₂ (runSteps k s₁) (runSteps k s₂) := by
  induction k generalizing s₁ s₂ with
  | zero => exact .next h
  | succ k ih =>
    unfold runSteps
    have hstep := h.step_alike
    generalize step s₁ = r₁ at hstep ⊢
    generalize step s₂ = r₂ at hstep ⊢
    cases hstep with
    | next ht => exact ih ht
    | refused r => exact .refused r

/-- Settles O31: idle states are alike, and a run keeps alike states alike or refuses in both for one reason. -/
theorem idleStatesAreIndistinguishable : Obligations.IdleStatesAreIndistinguishable := by
  unfold Obligations.IdleStatesAreIndistinguishable
  intro s₁ s₂ k hinv₁ hinv₂ hb₁ hb₂ hfmt hp
  have hrun := (Alike.of_idle hinv₁ hinv₂ hb₁ hb₂ hfmt hp).runSteps_alike k
  generalize runSteps k s₁ = r₁ at hrun ⊢
  generalize runSteps k s₂ = r₂ at hrun ⊢
  cases hrun with
  | next h =>
    obtain ⟨d, hd₁, hd₂⟩ := h.reports
    exact .inl ⟨_, _, d, rfl, rfl, hd₁, hd₂, h.out, h.pending, h.busy⟩
  | refused r => exact .inr ⟨r, rfl, rfl⟩

end Sys2Proof.Machine
end

section
/-! How `step` serves each event of a frame, and which items an ITEM step takes (spec/20_memory.md R43, R44, R46). -/

namespace Sys2Proof.Machine

theorem decode_encode (i : Instr) : decode (encode i) = i := by
  cases i with
  | reserved v => cases v <;> decide
  | menc | mdec | mapb | mapq | detb | detq => decide

theorem decodeTableWord_encode (i : Instr) : decodeTableWord 8 (encode i).toNat = some i := by
  cases i with
  | reserved v => cases v <;> decide
  | menc | mdec | mapb | mapq | detb | detq => decide

theorem State.withFetchWord_encode (s : State) (i : Instr) :
    s.withFetchWord 8 (encode i).toNat = s.presentCommand i := by
  simp [State.withFetchWord, decodeTableWord_encode]

theorem step_eq_exec {s : State} {i : Instr} (h : s.selected = some i) : step s = exec i s := by
  simp [step, h]

section StepByEvent
variable {s : State} {op : BitVec 3} {v : Item} {rest : List Event}

theorem State.selected_start (hp : s.pending = .start op :: rest) (hb : s.busy = false) :
    s.selected = some (decode op) := by
  simp [State.selected, hp, hb]

theorem State.selected_item (hp : s.pending = .item v :: rest) (hb : s.busy = true) :
    s.selected = some (decode s.opl) := by
  simp [State.selected, hp, hb]

theorem State.selected_endFrame (hp : s.pending = .endFrame :: rest) (hb : s.busy = true) :
    s.selected = some (decode s.opl) := by
  simp [State.selected, hp, hb]

theorem exec_item_next {i : Instr} {t : State} (hp : s.pending = .item v :: rest) (hb : s.busy = true)
    (ht : itemStepOf i v (s.setPending rest) = some t) : exec i s = .next t := by
  rw [exec_eq_runEvent, runEvent_item hp hb ht]

theorem exec_item_refused {i : Instr} (hp : s.pending = .item v :: rest) (hb : s.busy = true)
    (ht : itemStepOf i v (s.setPending rest) = none) : exec i s = .refused .itemWrongType := by
  rw [exec_eq_runEvent]
  simp [runEvent, hp, hb, ht]

theorem step_start (hp : s.pending = .start op :: rest) (hb : s.busy = false) :
    step s = .next ((s.setPending rest).openFrame op) := by
  rw [step_eq_exec (State.selected_start hp hb), exec_eq_runEvent]
  simp [runEvent, hp, hb]

theorem step_item {t : State} (hp : s.pending = .item v :: rest) (hb : s.busy = true)
    (ht : itemStepOf (decode s.opl) v (s.setPending rest) = some t) : step s = .next t := by
  rw [step_eq_exec (State.selected_item hp hb), exec_item_next hp hb ht]

theorem step_endFrame (hp : s.pending = .endFrame :: rest) (hb : s.busy = true) :
    step s = .next ((s.setPending rest).closeFrame (statusOf (decode s.opl) s)) := by
  rw [step_eq_exec (State.selected_endFrame hp hb), exec_eq_runEvent]
  simp [runEvent, hp, hb]

end StepByEvent

/-- Settles O3: each clause says which operation the event selects; a word placed by `withFetchWord` selects the
command it encodes. -/
theorem stepRunsSelectedOperation : Obligations.StepRunsSelectedOperation := by
  unfold Obligations.StepRunsSelectedOperation
  refine ⟨fun s op rest hp hb => step_eq_exec (State.selected_start hp hb),
    fun s v rest hp hb => step_eq_exec (State.selected_item hp hb),
    fun s rest hp hb => step_eq_exec (State.selected_endFrame hp hb), fun s i => ?_⟩
  rw [State.withFetchWord_encode]
  apply step_eq_exec
  rw [State.selected_start (State.presentCommand_pending i s) rfl, decode_encode]

/-- An ITEM step exists exactly for the items the operation takes (R44). -/
theorem itemStepOf_isSome (i : Instr) (v : Item) (s : State) :
    (itemStepOf i v s).isSome = i.accepts s.fmt v := by
  cases i with
  | menc | mdec | mapb | mapq => cases v <;> rfl
  | detb | detq =>
    cases v with
    | bit b => rfl
    | symbol p => cases hp : p.wf s.fmt <;> simp [itemStepOf, detbItem, detqItem, takeSymbol, Instr.accepts, hp]
  | reserved _ => cases hv : v.wf s.fmt <;> simp [itemStepOf, reservedItem, takeAny, Instr.accepts, hv]

/-- Settles O13: `exec` refuses exactly where the operation has no ITEM step. -/
theorem wrongItemTypeRefused : Obligations.WrongItemTypeRefused := by
  unfold Obligations.WrongItemTypeRefused
  intro i s v rest hb hp
  have haccepts : (itemStepOf i v (s.setPending rest)).isSome = i.accepts s.fmt v := itemStepOf_isSome i v _
  rw [← haccepts]
  cases ht : itemStepOf i v (s.setPending rest) with
  | none => simp [exec_item_refused hp hb ht]
  | some t => simp [exec_item_next hp hb ht]

end Sys2Proof.Machine
end

section
/-! What each event adds to the output port (spec/20_memory.md R45). -/

namespace Sys2Proof.Machine

/-- R45's table: what an ITEM step of `i` on the item `v` may emit, at `PHASE = phase`. -/
def Emission (i : Instr) (phase : Bit) (v : Item) (ys : List Item) : Prop :=
  match i with
  | .menc => ∃ b, v = .bit b ∧ ys = [.bit b, .bit (!b)]
  | .mdec => (phase = false → ys = []) ∧ (phase = true → ∃ b, ys = [.bit b])
  | .mapb => ∃ p, ys = [.symbol p]
  | .mapq => (phase = false → ys = []) ∧ (phase = true → ∃ p, ys = [.symbol p])
  | .detb => ∃ b, ys = [.bit b]
  | .detq => ∃ p, v = .symbol p ∧ ys = [.bit (ge0 p.i), .bit (ge0 p.q)]
  | .reserved _ => ys = []

/-- A pair step emits at the second bit of a group only. -/
theorem State.pairStep_out (output : Bit → Bit → List Item) (b : Bit) (s : State) :
    (s.pairStep output b).out = s.out ++ if s.phase then output s.hold b else [] := by
  cases hp : s.phase with
  | false => simp [State.pairStep_first output b hp]
  | true => simp [State.pairStep_second output b hp]

theorem itemStepOf_emission {i : Instr} {v : Item} {s t : State} (h : itemStepOf i v s = some t) :
    ∃ ys, t.out = s.out ++ ys ∧ Emission i s.phase v ys := by
  cases i with
  | menc =>
    obtain ⟨b, hb, rfl⟩ := Option.map_eq_some_iff.mp h
    exact ⟨_, rfl, b, takeBit_eq_some.mp hb, rfl⟩
  | mdec | mapq =>
    obtain ⟨b, -, rfl⟩ := Option.map_eq_some_iff.mp h
    exact ⟨_, State.pairStep_out _ b s, fun hp => by simp [hp], fun hp => ⟨_, by rw [hp]; rfl⟩⟩
  | mapb | detb =>
    obtain ⟨_, -, rfl⟩ := Option.map_eq_some_iff.mp h
    exact ⟨_, rfl, _, rfl⟩
  | detq =>
    obtain ⟨p, hp, rfl⟩ := Option.map_eq_some_iff.mp h
    exact ⟨_, rfl, p, (takeSymbol_eq_some.mp hp).1, rfl⟩
  | reserved _ =>
    obtain ⟨_, -, rfl⟩ := Option.map_eq_some_iff.mp h
    exact ⟨[], by simp, rfl⟩

section Emitted
variable (s : State)

@[simp] theorem State.setPending_emitted (es : List Event) : (s.setPending es).emitted = s.emitted := rfl

/-- END moves the items of the open frame into its report. -/
@[simp] theorem State.closeFrame_emitted (st : Status) : (s.closeFrame st).emitted = s.emitted := by
  simp [State.emitted]

theorem State.openFrame_emitted (op : BitVec 3) (h : s.out = []) : (s.openFrame op).emitted = s.emitted := by
  simp [State.emitted, h]

/-- RESET moves them as well; of an idle block there are none. -/
theorem State.resetBlock_emitted (h : s.busy = false → s.out = []) : s.resetBlock.emitted = s.emitted := by
  cases hb : s.busy with
  | false => simp [State.emitted, hb, h hb]
  | true => simp [State.emitted, hb]

end Emitted

/-- Settles O21, by the kind of event the step consumes. -/
theorem emitsOnlyInItemSteps : Obligations.EmitsOnlyInItemSteps := by
  unfold Obligations.EmitsOnlyInItemSteps
  intro s t e rest hinv hp h
  obtain ⟨op, rest', hp', hb, rfl⟩ | ⟨v, rest', hp', -, hitem⟩ | ⟨rest', hp', -, rfl⟩ | ⟨rest', hp', rfl⟩ :=
    step_next h
  all_goals
    obtain ⟨rfl, rfl⟩ := List.cons.inj (hp.symm.trans hp')
  case inl => exact State.openFrame_emitted _ op (hinv.idle_out hb)
  case inr.inl =>
    obtain ⟨-, -, -, -, hreports, -⟩ := itemStepOf_frame hitem
    obtain ⟨ys, hout, hys⟩ := itemStepOf_emission hitem
    refine ⟨ys, by simp [State.emitted, hreports, hout], ?_⟩
    generalize decode s.opl = i at hys ⊢
    cases i <;> exact hys
  case inr.inr.inl => exact State.closeFrame_emitted _ _
  case inr.inr.inr => exact State.resetBlock_emitted _ hinv.idle_out

end Sys2Proof.Machine
end

section
/-! The step machine against the frame-level meaning `Exec(op, x)` (spec/20_memory.md R47): the ITEM steps of a whole
frame without the queue (`itemRun`), the run of a frame put together from them, and what each command emits. -/

namespace Sys2Proof.Machine

/-- The ITEM steps of `i` on the items of a frame, one after the other. -/
def itemRun (i : Instr) : List Item → State → Option State
  | [], s => some s
  | v :: x, s => (itemStepOf i v s).bind (itemRun i x)

theorem itemRun_cons {i : Instr} {v : Item} {x : List Item} {s u : State} (h : itemStepOf i v s = some u) :
    itemRun i (v :: x) s = itemRun i x u := by
  simp [itemRun, h]

/-! ## An ITEM step does not read the queue -/

theorem State.pairStep_setPending (output : Bit → Bit → List Item) (b : Bit) (s : State) (es : List Event) :
    (s.setPending es).pairStep output b = (s.pairStep output b).setPending es := by
  cases hp : s.phase with
  | false => rw [State.pairStep_first output b hp, State.pairStep_first output b (by simpa using hp)]; rfl
  | true => rw [State.pairStep_second output b hp, State.pairStep_second output b (by simpa using hp)]; rfl

theorem itemStepOf_setPending {i : Instr} {v : Item} {s t : State} (es : List Event)
    (h : itemStepOf i v s = some t) : itemStepOf i v (s.setPending es) = some (t.setPending es) := by
  cases i with
  | mdec | mapq =>
    obtain ⟨b, hb, rfl⟩ := Option.map_eq_some_iff.mp h
    exact Option.map_eq_some_iff.mpr ⟨b, hb, State.pairStep_setPending _ b s es⟩
  | menc | mapb | detb | detq | reserved _ =>
    obtain ⟨a, ha, rfl⟩ := Option.map_eq_some_iff.mp h
    exact Option.map_eq_some_iff.mpr ⟨a, ha, rfl⟩

theorem statusOf_setPending (i : Instr) (s : State) (es : List Event) :
    statusOf i (s.setPending es) = statusOf i s := by
  cases i <;> rfl

/-! ## The run of a frame -/

theorem itemRun_frame {i : Instr} {x : List Item} {s t : State} (h : itemRun i x s = some t) :
    t.fmt = s.fmt ∧ t.busy = s.busy ∧ t.opl = s.opl ∧ t.reports = s.reports := by
  induction x generalizing s with
  | nil => obtain rfl := Option.some.inj h; simp
  | cons v x ih =>
    obtain ⟨u, hu, hrun⟩ := Option.bind_eq_some_iff.mp h
    obtain ⟨hfmt, hbusy, hopl, -, hreports, -⟩ := itemStepOf_frame hu
    simpa only [hfmt, hbusy, hopl, hreports] using ih hrun

theorem runSteps_items {x : List Item} {s t : State} (rest : List Event) (hb : s.busy = true)
    (h : itemRun (decode s.opl) x s = some t) :
    runSteps x.length (s.setPending (x.map .item ++ rest)) = .next (t.setPending rest) := by
  induction x generalizing s with
  | nil => obtain rfl := Option.some.inj h; rfl
  | cons v x ih =>
    obtain ⟨u, hu, hrun⟩ := Option.bind_eq_some_iff.mp h
    obtain ⟨-, hbusy, hopl, -, -, -⟩ := itemStepOf_frame hu
    have hqueued := itemStepOf_setPending (x.map .item ++ rest) hu
    have hstep : step (s.setPending ((v :: x).map .item ++ rest)) = .next (u.setPending (x.map .item ++ rest)) :=
      step_item rfl hb hqueued
    rw [List.length_cons, runSteps_succ _ hstep]
    exact ih (hbusy.trans hb) (by rwa [hopl])

/-- START, the ITEM steps and END of a whole frame. -/
theorem runSteps_frame {s u : State} {op : BitVec 3} {x : List Item} {rest : List Event} (hb : s.busy = false)
    (hp : s.pending = frameEvents op x ++ rest) (h : itemRun (decode op) x (s.openFrame op) = some u) :
    runSteps (x.length + 2) s = .next ((u.closeFrame (statusOf (decode op) u)).setPending rest) := by
  have hp : s.pending = .start op :: (x.map .item ++ .endFrame :: rest) := by simpa [frameEvents] using hp
  obtain ⟨-, hbusy, hopl, -⟩ := itemRun_frame h
  have hstart : step s = .next ((s.openFrame op).setPending (x.map .item ++ .endFrame :: rest)) := step_start hp hb
  have hitems : runSteps x.length ((s.openFrame op).setPending (x.map .item ++ .endFrame :: rest)) =
      .next (u.setPending (.endFrame :: rest)) := runSteps_items _ rfl h
  have hend : step (u.setPending (.endFrame :: rest)) =
      .next ((u.closeFrame (statusOf (decode op) u)).setPending rest) := by
    rw [step_endFrame (s := u.setPending _) rfl hbusy, State.setPending_opl, hopl, statusOf_setPending]
    rfl
  rw [runSteps_succ _ hstart, runSteps_add _ 1 hitems, runSteps_succ _ hend]
  rfl

/-! ## Frames by the type of their items -/

theorem acceptsFrame_iff {fmt : Format} {i : Instr} {x : List Item} :
    i.acceptsFrame fmt x = true ↔ ∀ v ∈ x, i.accepts fmt v = true := List.all_eq_true

/-- A frame of an operation that takes no symbol is a frame of bits. -/
theorem exists_bitFrame {fmt : Format} {i : Instr} {x : List Item}
    (hsymbol : ∀ p, i.accepts fmt (.symbol p) = false) (h : i.acceptsFrame fmt x = true) :
    ∃ c, bitFrame c = x := by
  have hx : x ∈ Set.range (List.map Item.bit) := by
    rw [Set.range_list_map]
    intro v hv
    cases v with
    | bit b => exact ⟨b, rfl⟩
    | symbol p => simpa [hsymbol p] using acceptsFrame_iff.mp h _ hv
  exact hx

/-- A frame of an operation that takes only symbols of the format is a frame of such symbols. -/
theorem exists_symbolFrame {fmt : Format} {i : Instr} {x : List Item}
    (hbit : ∀ b, i.accepts fmt (.bit b) = false) (hsymbol : ∀ p, i.accepts fmt (.symbol p) = p.wf fmt)
    (h : i.acceptsFrame fmt x = true) : ∃ r, symbolFrame r = x ∧ ∀ p ∈ r, p.wf fmt = true := by
  have hx : x ∈ Set.range (List.map Item.symbol) := by
    rw [Set.range_list_map]
    intro v hv
    cases v with
    | bit b => simpa [hbit b] using acceptsFrame_iff.mp h _ hv
    | symbol p => exact ⟨p, rfl⟩
  obtain ⟨r, rfl⟩ := hx
  refine ⟨r, rfl, fun p hp => ?_⟩
  rw [← hsymbol p]
  exact acceptsFrame_iff.mp h _ (List.mem_map_of_mem hp)

theorem takeSymbol_of_wf {fmt : Format} {p : Symbol} (h : p.wf fmt = true) : takeSymbol fmt (.symbol p) = some p :=
  takeSymbol_eq_some.mpr ⟨rfl, h⟩

theorem symbolsOf_symbolFrame {fmt : Format} {r : List Symbol} (h : ∀ p ∈ r, p.wf fmt = true) :
    symbolsOf fmt (symbolFrame r) = some r :=
  symbolsOf_eq_some.mpr ⟨rfl, h⟩

/-! ## The ITEM steps of a whole frame, by the way the operation emits -/

/-- An operation that emits on each item alone emits on a frame what it emits on the items, in order. -/
theorem itemRun_map {α : Type} {i : Instr} {item : α → Item} {output : α → List Item} {xs : List α} {s : State}
    (h : ∀ a ∈ xs, ∀ s' : State, s'.fmt = s.fmt → itemStepOf i (item a) s' = some (s'.emit (output a))) :
    itemRun i (xs.map item) s = some (s.emit (xs.flatMap output)) := by
  induction xs generalizing s with
  | nil => simp [itemRun]
  | cons a xs ih =>
    have hrun : itemRun i (xs.map item) (s.emit (output a)) = some ((s.emit (output a)).emit (xs.flatMap output)) :=
      ih fun b hb => h b (List.mem_cons_of_mem a hb)
    rw [List.map_cons, itemRun_cons (h a List.mem_cons_self s rfl), hrun]
    simp [State.emit]

/-- A sink frame emits nothing and changes nothing (R63). -/
theorem itemRun_reserved (v : Bit) {x : List Item} {s : State} (h : x.all (Item.wf s.fmt) = true) :
    itemRun (.reserved v) x s = some s := by
  induction x with
  | nil => rfl
  | cons w x ih =>
    rw [List.all_cons, Bool.and_eq_true] at h
    obtain ⟨hw, hx⟩ := h
    have hstep : itemStepOf (.reserved v) w s = some s := by simp [itemStepOf, reservedItem, takeAny, hw]
    rw [itemRun_cons hstep, ih hx]

/-- What an operation on pairs emits for the complete groups of a frame; a last bit without a partner is left out. -/
def pairOutputs (output : Bit → Bit → List Item) : List Bit → List Item
  | [] => []
  | [_] => []
  | a :: b :: c => output a b ++ pairOutputs output c

/-- The meaning of such an operation on a frame; none where a bit has no partner (R151). -/
def pairedFrame (output : Bit → Bit → List Item) (c : List Bit) : Option (List Item) :=
  if c.length % 2 = 0 then some (pairOutputs output c) else none

/-- Only the `floor(n/2)` complete groups count. -/
theorem pairOutputs_take (output : Bit → Bit → List Item) (c : List Bit) :
    pairOutputs output (c.take (2 * (c.length / 2))) = pairOutputs output c := by
  induction c using pairOutputs.induct with
  | case1 => rfl
  | case2 a => simp [pairOutputs]
  | case3 a b c ih =>
    have hlen : 2 * ((a :: b :: c).length / 2) = 2 * (c.length / 2) + 2 := by
      simp only [List.length_cons]; omega
    rw [hlen, List.take_succ_cons, List.take_succ_cons, pairOutputs, pairOutputs, ih]

theorem pairedFrame_take (output : Bit → Bit → List Item) (c : List Bit) :
    pairedFrame output (c.take (2 * (c.length / 2))) = some (pairOutputs output c) := by
  have hlen : (c.take (2 * (c.length / 2))).length % 2 = 0 := by
    rw [List.length_take]; omega
  rw [pairedFrame, if_pos hlen, pairOutputs_take]

theorem pairedFrame_cons_cons (output : Bit → Bit → List Item) (a b : Bit) (c : List Bit) :
    pairedFrame output (a :: b :: c) = (pairedFrame output c).map (output a b ++ ·) := by
  have hlen : (a :: b :: c).length % 2 = c.length % 2 := by simp [Nat.add_assoc]
  rw [pairedFrame, pairedFrame, hlen]
  split <;> rfl

/-- An operation on pairs, from the start of a group: it emits the complete groups, and `PHASE` is the parity of the
frame's length. -/
theorem itemRun_pairs {i : Instr} {output : Bit → Bit → List Item} (c : List Bit) {s : State}
    (hphase : s.phase = false)
    (h : ∀ (b : Bit) (s' : State), s'.fmt = s.fmt → itemStepOf i (.bit b) s' = some (s'.pairStep output b)) :
    ∃ u, itemRun i (bitFrame c) s = some u ∧ u.out = s.out ++ pairOutputs output c ∧
      u.phase = decide (c.length % 2 = 1) := by
  induction c using pairOutputs.induct generalizing s with
  | case1 => exact ⟨s, rfl, by simp [pairOutputs], hphase⟩
  | case2 b =>
    refine ⟨(s.setHold b).setPhase true, ?_, by simp [pairOutputs], rfl⟩
    rw [bitFrame, List.map_cons, itemRun_cons (h b s rfl), State.pairStep_first output b hphase]
    rfl
  | case3 a b c ih =>
    have hfirst : itemStepOf i (.bit a) s = some ((s.setHold a).setPhase true) := by
      rw [h a s rfl, State.pairStep_first output a hphase]
    have hsecond : itemStepOf i (.bit b) ((s.setHold a).setPhase true) =
        some ((((s.setHold a).setPhase true).emit (output a b)).setPhase false) := by
      rw [h b ((s.setHold a).setPhase true) rfl, State.pairStep_second output b rfl]
      rfl
    obtain ⟨u, hrun, hout, hu⟩ :=
      ih (s := (((s.setHold a).setPhase true).emit (output a b)).setPhase false) rfl h
    refine ⟨u, ?_, by simp [hout, pairOutputs], by simp [hu, Nat.add_assoc]⟩
    rw [bitFrame, List.map_cons, List.map_cons, itemRun_cons hfirst, itemRun_cons hsecond]
    exact hrun

/-! ## The frame-level meaning in the same terms -/

theorem mencFrame_eq_flatMap (x : List Bit) : mencFrame x = x.flatMap codeWord := by
  induction x with
  | nil => rfl
  | cons b x ih => rw [mencFrame, ih, List.flatMap_cons]

theorem detqFrame_eq_flatMap (r : List Symbol) : detqFrame r = r.flatMap qpskDecision := by
  induction r with
  | nil => rfl
  | cons p r ih => rw [detqFrame, ih, List.flatMap_cons]

theorem mdecFrame_eq_pairedFrame (c : List Bit) :
    (mdecFrame c).map bitFrame = pairedFrame (fun first second => [.bit (decodeGroup first second)]) c := by
  induction c using mdecFrame.induct with
  | case1 | case2 => rfl
  | case3 a b c ih =>
    rw [pairedFrame_cons_cons, ← ih, mdecFrame, Option.map_map, Option.map_map]
    rfl

theorem mapqFrame_eq_pairedFrame (fmt : Format) (c : List Bit) :
    (mapqFrame fmt c).map symbolFrame = pairedFrame (fun c0 c1 => [.symbol (qpskPoint fmt c0 c1)]) c := by
  induction c using mapqFrame.induct with
  | case1 | case2 => rfl
  | case3 a b c ih =>
    rw [pairedFrame_cons_cons, ← ih, mapqFrame, Option.map_map, Option.map_map]
    rfl

/-! ## The step machine agrees with the frame-level meaning -/

/-- R47: items `y` and status `st` are what the step machine delivers of a frame `x` of `i` whose meaning is `res`. -/
def FrameResult.DeliveredAs (fmt : Format) (i : Instr) (x : List Item) (y : List Item) (st : Status) :
    FrameResult → Prop
  | .ok out => st = .ok ∧ y = out
  | .fault .invalidBitLength => st = .invalidBitLength ∧
      execFrame fmt i (x.take (2 * (x.length / 2))) = some (.ok y)
  | .fault .illegalOp => st = .illegalOp ∧ y = []

/-- The ITEM steps of `i` on the frame `x` from state `s`, and the status at END, deliver `Exec(i, x)`. -/
def DeliversFrame (i : Instr) (x : List Item) (s : State) : Prop :=
  ∃ u res, itemRun i x s = some u ∧ execFrame s.fmt i x = some res ∧
    res.DeliveredAs s.fmt i x u.out (statusOf i u)

section Delivers
variable {i : Instr} {s : State}

/-- An operation that emits on each item alone delivers what it emits, and OK. -/
theorem deliversFrame_map {α : Type} {item : α → Item} {output : α → List Item} {xs : List α} (hout : s.out = [])
    (hitem : ∀ a ∈ xs, ∀ s' : State, s'.fmt = s.fmt → itemStepOf i (item a) s' = some (s'.emit (output a)))
    (hexec : execFrame s.fmt i (xs.map item) = some (.ok (xs.flatMap output))) (hstatus : statusOf i = statusSingle) :
    DeliversFrame i (xs.map item) s :=
  ⟨_, _, itemRun_map hitem, hexec, by rw [hstatus, statusSingle], by simp [hout]⟩

/-- An operation on pairs: an even frame delivers its output, an odd one the output of its complete groups and
`InvalidBitLength`. -/
theorem deliversFrame_pairs {output : Bit → Bit → List Item} (c : List Bit) (hphase : s.phase = false)
    (hout : s.out = [])
    (hitem : ∀ (b : Bit) (s' : State), s'.fmt = s.fmt → itemStepOf i (.bit b) s' = some (s'.pairStep output b))
    (hexec : ∀ c, execFrame s.fmt i (bitFrame c) = some (pairedResult (pairedFrame output c)))
    (hstatus : statusOf i = statusPaired) : DeliversFrame i (bitFrame c) s := by
  obtain ⟨u, hrun, hu, hparity⟩ := itemRun_pairs c hphase hitem
  rw [hout, List.nil_append] at hu
  refine ⟨u, _, hrun, hexec c, ?_⟩
  rw [hstatus, statusPaired, hparity, hu]
  by_cases heven : c.length % 2 = 0
  · rw [pairedFrame, if_pos heven]
    exact ⟨by simp [heven], rfl⟩
  · rw [pairedFrame, if_neg heven]
    have hgroups : (bitFrame c).take (2 * ((bitFrame c).length / 2)) = bitFrame (c.take (2 * (c.length / 2))) := by
      simp [bitFrame]
    refine ⟨by simp [Nat.mod_two_ne_zero.mp heven], ?_⟩
    rw [hgroups, hexec, pairedFrame_take]
    rfl

/-- R47 for the ITEM steps: by the command, its frame read as the stream it takes and its meaning as what the shared
lemmas say is emitted. -/
theorem deliversFrame_of_accepts {x : List Item} (hphase : s.phase = false) (hout : s.out = [])
    (hx : i.acceptsFrame s.fmt x = true) : DeliversFrame i x s := by
  cases i with
  | menc =>
    obtain ⟨c, rfl⟩ := exists_bitFrame (fun _ => rfl) hx
    refine deliversFrame_map (xs := c) hout (fun b _ s' _ => rfl) ?_ rfl
    rw [execFrame, ← bitFrame, bitsOf_bitFrame, Option.map_some, mencFrame_eq_flatMap, bitFrame, List.map_flatMap]
  | mapb =>
    obtain ⟨c, rfl⟩ := exists_bitFrame (fun _ => rfl) hx
    refine deliversFrame_map (xs := c) (output := fun b => [.symbol (bpskPoint s.fmt b)]) hout
      (fun b _ s' hs' => by rw [← hs']; rfl) ?_ rfl
    rw [execFrame, ← bitFrame, bitsOf_bitFrame, Option.map_some, mapbFrame, symbolFrame, List.map_map,
      List.map_eq_flatMap]
    rfl
  | mdec =>
    obtain ⟨c, rfl⟩ := exists_bitFrame (fun _ => rfl) hx
    refine deliversFrame_pairs c hphase hout (fun b s' _ => rfl) (fun c => ?_) rfl
    rw [execFrame, bitsOf_bitFrame, Option.map_some, mdecFrame_eq_pairedFrame]
  | mapq =>
    obtain ⟨c, rfl⟩ := exists_bitFrame (fun _ => rfl) hx
    refine deliversFrame_pairs (output := fun c0 c1 => [.symbol (qpskPoint s.fmt c0 c1)]) c hphase hout
      (fun b s' hs' => by rw [← hs']; rfl) (fun c => ?_) rfl
    rw [execFrame, bitsOf_bitFrame, Option.map_some, mapqFrame_eq_pairedFrame]
  | detb =>
    obtain ⟨r, rfl, hr⟩ := exists_symbolFrame (fun _ => rfl) (fun _ => rfl) hx
    refine deliversFrame_map (xs := r) (output := fun p => [.bit (bpskDecision p)]) hout
      (fun p hp s' hs' => by rw [itemStepOf, detbItem, hs', takeSymbol_of_wf (hr p hp)]; rfl) ?_ rfl
    rw [execFrame, ← symbolFrame, symbolsOf_symbolFrame hr, Option.map_some, detbFrame, bitFrame, List.map_map,
      List.map_eq_flatMap]
    rfl
  | detq =>
    obtain ⟨r, rfl, hr⟩ := exists_symbolFrame (fun _ => rfl) (fun _ => rfl) hx
    refine deliversFrame_map (xs := r) (output := fun p => (qpskDecision p).map .bit) hout
      (fun p hp s' hs' => by rw [itemStepOf, detqItem, hs', takeSymbol_of_wf (hr p hp)]; rfl) ?_ rfl
    rw [execFrame, ← symbolFrame, symbolsOf_symbolFrame hr, Option.map_some, detqFrame_eq_flatMap, bitFrame,
      List.map_flatMap]
  | reserved v =>
    have hwf : x.all (Item.wf s.fmt) = true := hx
    exact ⟨s, .fault .illegalOp, itemRun_reserved v hwf, by rw [execFrame, if_pos hwf], rfl, hout⟩

end Delivers

/-- Settles O30: the ITEM steps of the frame deliver its meaning, and END reports it. -/
theorem stepMachineAgreesWithExec : Obligations.StepMachineAgreesWithExec := by
  unfold Obligations.StepMachineAgreesWithExec
  intro s op x rest hb hx hp
  obtain ⟨u, res, hrun, hexec, hdelivered⟩ :=
    deliversFrame_of_accepts (i := decode op) (s := s.openFrame op) rfl rfl hx
  obtain ⟨-, -, -, hreports⟩ := itemRun_frame hrun
  refine ⟨_, u.out, statusOf (decode op) u, res, runSteps_frame hb hp hrun, by simp [hreports], rfl, rfl, rfl,
    hexec, ?_⟩
  match res with
  | .ok _ | .fault .invalidBitLength | .fault .illegalOp => exact hdelivered

end Sys2Proof.Machine
end

section
/-! The codes of the commands (spec/30_encoding.md R61 to R63, R76), the frames of the reserved codes (R63) and the
codes of the status port (R71). -/

namespace Sys2Proof.Machine

/-- Decoding loses nothing, the free bit of the reserved row included. -/
theorem encode_decode : ∀ op : BitVec 3, encode (decode op) = op := by decide

/-- A command is decoded from its own code and from no other. -/
theorem decode_eq_iff {op : BitVec 3} {i : Instr} : decode op = i ↔ op = encode i := by
  constructor
  · rintro rfl
    exact (encode_decode op).symm
  · rintro rfl
    exact decode_encode i

theorem exists_decode_eq_reserved_iff {op : BitVec 3} :
    (∃ v, decode op = .reserved v) ↔ op = 0b110#3 ∨ op = 0b111#3 := by
  simp only [decode_eq_iff, Bool.exists_bool, encode]

/-- The mask and match of the reserved row select the codes `11v`. -/
theorem and_eq_reserved_match_iff : ∀ op : BitVec 3, op &&& 0b110#3 = 0b110#3 ↔ op = 0b110#3 ∨ op = 0b111#3 := by
  decide

/-- A row of R76 whose mask is the whole word selects the one command whose code is its match. -/
theorem and_mask_eq_encode_iff (op : BitVec 3) (i : Instr) : op &&& 0b111#3 = encode i ↔ decode op = i := by
  rw [show (0b111#3 : BitVec 3) = BitVec.allOnes 3 from rfl, BitVec.and_allOnes, decode_eq_iff]

/-- Settles O1: the six operations are the rows with the full mask, and the words of R62 are the codes `encode`
gives. -/
theorem decodeAgreesWithOpcodeTable : Obligations.DecodeAgreesWithOpcodeTable := by
  unfold Obligations.DecodeAgreesWithOpcodeTable
  have hrow := and_mask_eq_encode_iff
  refine ⟨fun op => ⟨hrow op .menc, hrow op .mdec, hrow op .mapb, hrow op .mapq, hrow op .detb, hrow op .detq, ?_⟩,
    ?_⟩
  · rw [and_eq_reserved_match_iff, exists_decode_eq_reserved_iff]
  · exact ⟨decode_encode .menc, decode_encode .mdec, decode_encode .mapb, decode_encode .mapq, decode_encode .detb,
      decode_encode .detq, decode_encode (.reserved false), decode_encode (.reserved true)⟩

/-- Settles O34: the items of the frame change nothing, so END closes the frame as START opened it. -/
theorem reservedCodesAreSinkFrames : Obligations.ReservedCodesAreSinkFrames := by
  unfold Obligations.ReservedCodesAreSinkFrames
  refine ⟨fun fmt v x hx => by rw [execFrame, if_pos hx], fun s op x rest hop hbusy hphase hx hp => ?_⟩
  obtain ⟨v, hv⟩ := exists_decode_eq_reserved_iff.mpr hop
  have hitems : itemRun (decode op) x (s.openFrame op) = some (s.openFrame op) := by
    rw [hv]
    exact itemRun_reserved v hx
  rw [runSteps_frame hbusy hp hitems, hv]
  simp [State.openFrame, State.closeFrame, State.setPending, statusOf, statusReserved, hbusy, hphase]

/-- No status has the code 0b11 (R71). -/
theorem Status.code_ne_three (st : Status) : st.code ≠ 0b11#2 := by
  cases st <;> decide

/-- Settles O23: each code and each result is the one its definition gives, whatever the items of the frame. -/
theorem statusCodes : Obligations.StatusCodes := by
  unfold Obligations.StatusCodes
  exact ⟨fun y => ⟨rfl, rfl, rfl, rfl, rfl, rfl⟩, Status.code_ne_three⟩

end Sys2Proof.Machine
end

section
/-! The constants of the mapper (spec/41_mapper.md R92, R93) and the words of the samples it assembles
(spec/30_encoding.md R69). -/

namespace Sys2Proof.Machine

theorem Format.bounds (fmt : Format) : 3 ≤ fmt.w ∧ 1 ≤ fmt.f ∧ fmt.f + 2 ≤ fmt.w := by
  simpa [formatLegal, and_assoc] using fmt.legal

/-! ## The bounds of `ONE` and `AQ` -/

theorem one_eq_two_pow (fmt : Format) : one fmt = (2 : Int) ^ fmt.f := by
  simp [one]

theorem one_le_two_pow_sub (fmt : Format) : one fmt ≤ (2 : Int) ^ (fmt.w - 2) := by
  obtain ⟨-, -, hf⟩ := Format.bounds fmt
  rw [one_eq_two_pow]
  exact pow_le_pow_right₀ (by decide) (by omega)

/-- `2^F` is large enough to bound `AQ` by R93's lower inequality. -/
theorem two_pow_le_sq {f : Nat} (hf : 1 ≤ f) : 2 ^ (2 * f + 1) ≤ (2 * 2 ^ f - 1) ^ 2 := by
  obtain ⟨k, hk⟩ : ∃ k, 2 ^ f = k + 2 := Nat.exists_eq_add_of_le' (Nat.le_self_pow (by omega) 2)
  have hsub : 2 * (k + 2) - 1 = 2 * k + 3 := by omega
  rw [pow_succ, mul_comm 2 f, pow_mul, hk, hsub]
  nlinarith

/-- R93's inequalities for the computed `AQ`: the digits keep them up to equality, and the sides of the upper one
differ in parity. -/
theorem aqNat_bounds {f : Nat} (hf : 1 ≤ f) :
    1 ≤ aqNat f ∧ (2 * aqNat f - 1) ^ 2 < 2 ^ (2 * f + 1) ∧ 2 ^ (2 * f + 1) < (2 * aqNat f + 1) ^ 2 := by
  obtain ⟨hlower, hupper⟩ := aqDigits_bounds (2 ^ (2 * f + 1)) f 0 (.inl rfl) (by simpa using two_pow_le_sq hf)
  rw [← aqNat] at hlower hupper
  have hpos : aqNat f ≠ 0 := by
    intro h0
    rw [h0] at hupper
    exact absurd hupper (by simp)
  have hparity : 2 ^ (2 * f + 1) ≠ (2 * aqNat f + 1) ^ 2 := by
    intro heq
    have hodd : Odd ((2 * aqNat f + 1) ^ 2) := (odd_two_mul_add_one _).pow
    have heven : Even ((2 : Nat) ^ (2 * f + 1)) := even_two.pow_of_ne_zero (by omega)
    exact Nat.not_odd_iff_even.mpr heven (heq ▸ hodd)
  exact ⟨by omega, hlower.resolve_left hpos, lt_of_le_of_ne hupper hparity⟩

theorem one_le_aq (fmt : Format) : 1 ≤ aq fmt := by
  obtain ⟨-, hf, -⟩ := Format.bounds fmt
  exact Int.ofNat_le.mpr (aqNat_bounds hf).1

theorem aq_lt_one (fmt : Format) : aq fmt < one fmt := by
  obtain ⟨-, hf, -⟩ := Format.bounds fmt
  obtain ⟨-, hlower, -⟩ := aqNat_bounds hf
  have hlt : 2 * aqNat fmt.f - 1 < 2 * 2 ^ fmt.f - 1 :=
    lt_of_pow_lt_pow_left₀ 2 (Nat.zero_le _) (hlower.trans_le (two_pow_le_sq hf))
  exact Int.ofNat_lt.mpr (by omega)

/-! ## A sample and its word -/

theorem sampleInRange_iff {w : Nat} {s : Int} :
    sampleInRange w s = true ↔ -(2 : Int) ^ (w - 1) ≤ s ∧ s < (2 : Int) ^ (w - 1) := by
  simp [sampleInRange]

/-- A sample in range is the value of its word (R7). -/
theorem wordSample_sampleWord {w : Nat} {s : Int} (hw : 1 ≤ w) (h : sampleInRange w s = true) :
    wordSample (sampleWord w s) = s := by
  obtain ⟨hlow, hhigh⟩ := sampleInRange_iff.mp h
  exact BitVec.toInt_ofInt_eq_self hw hlow hhigh

/-- Every sample of magnitude at most `ONE` is in range, by one bit of headroom (R96). -/
theorem sampleInRange_of_abs_le_one {fmt : Format} {s : Int} (h : |s| ≤ one fmt) :
    sampleInRange fmt.w s = true := by
  obtain ⟨hw, -, -⟩ := Format.bounds fmt
  have hone := one_le_two_pow_sub fmt
  have hheadroom : (2 : Int) ^ (fmt.w - 2) < 2 ^ (fmt.w - 1) := pow_lt_pow_right₀ (by decide) (by omega)
  rw [abs_le] at h
  exact sampleInRange_iff.mpr ⟨by omega, by omega⟩

theorem abs_amp (c : Bit) (a : Int) : |amp c a| = |a| := by
  cases c
  · exact abs_neg a
  · rfl

/-- R69: the word of `-A` is the two's-complement negation of the word of `A`. -/
theorem sampleWord_amp (w : Nat) (c : Bit) (a : Int) :
    sampleWord w (amp c a) = if c then sampleWord w a else -(sampleWord w a) := by
  cases c
  · exact BitVec.ofInt_neg
  · rfl

/-- The two amplitudes of R69 are of magnitude at most `ONE`. -/
theorem abs_amplitude_le_one {fmt : Format} {a : Int} (h : a = one fmt ∨ a = aq fmt) : |a| ≤ one fmt := by
  have hpos := one_le_aq fmt
  have hlt := aq_lt_one fmt
  exact abs_le.mpr ⟨by omega, by omega⟩

/-- Settles O51: the negation is of the word, and both amplitudes are in range with either sign. -/
theorem amplitudeIsWordNegation : Obligations.AmplitudeIsWordNegation := by
  unfold Obligations.AmplitudeIsWordNegation
  intro fmt
  refine ⟨fun c a ha => ?_, fun _ => rfl, fun _ _ => rfl, one_le_aq fmt, aq_lt_one fmt, one_eq_two_pow fmt,
    one_le_two_pow_sub fmt⟩
  obtain ⟨hw, -, -⟩ := Format.bounds fmt
  have hrange : sampleInRange fmt.w (amp c a) = true :=
    sampleInRange_of_abs_le_one ((abs_amp c a).trans_le (abs_amplitude_le_one ha))
  exact ⟨sampleWord_amp fmt.w c a, wordSample_sampleWord (by omega) hrange, hrange⟩

end Sys2Proof.Machine
end

section
/-! Manchester frames (spec/40_manchester.md R82, R83, R85): the second bit of a group bears on no decoded bit. -/

namespace Sys2Proof.Machine

theorem execFrame_menc_bitFrame (fmt : Format) (b : List Bit) :
    execFrame fmt .menc (bitFrame b) = some (.ok (bitFrame (b.flatMap codeWord))) := by
  rw [execFrame, bitsOf_bitFrame, Option.map_some, mencFrame_eq_flatMap]

theorem execFrame_mdec_bitFrame (fmt : Format) (c : List Bit) :
    execFrame fmt .mdec (bitFrame c) = some (pairedResult ((mdecFrame c).map bitFrame)) := by
  rw [execFrame, bitsOf_bitFrame, Option.map_some]

theorem mdecFrame_flatMap_group {α : Type} (first second : α → Bit) (xs : List α) :
    mdecFrame (xs.flatMap fun x => [first x, second x]) = some (xs.map first) := by
  induction xs with
  | nil => rfl
  | cons x xs ih =>
    simp only [List.flatMap_cons, List.cons_append, List.nil_append, mdecFrame, ih, decodeGroup, Option.map_some,
      List.map_cons]

/-- R81 on a frame given by its groups: the first sub-bits, whatever the second ones are. -/
theorem execFrame_mdec_groups {α : Type} (fmt : Format) (first second : α → Bit) (xs : List α) :
    execFrame fmt .mdec (bitFrame (xs.flatMap fun x => [first x, second x])) =
      some (.ok (bitFrame (xs.map first))) := by
  rw [execFrame_mdec_bitFrame, mdecFrame_flatMap_group, Option.map_some, pairedResult]

/-- MDEC on what MENC gives for `b`: the groups are the code words, whose first sub-bits are the bits of `b`. -/
theorem execFrame_mdec_codeWords (fmt : Format) (b : List Bit) :
    execFrame fmt .mdec (bitFrame (b.flatMap codeWord)) = some (.ok (bitFrame b)) := by
  have h := execFrame_mdec_groups fmt id (fun a => !a) b
  rwa [List.map_id] at h

/-- Settles O41: the encoded frame is the code words of `b`, and their first sub-bits are `b`. -/
theorem manchesterRoundTrip : Obligations.ManchesterRoundTrip := by
  unfold Obligations.ManchesterRoundTrip
  intro fmt b
  exact ⟨bitFrame (b.flatMap codeWord), execFrame_menc_bitFrame fmt b, execFrame_mdec_codeWords fmt b⟩

/-- Settles O42: the group `00` is no code word, and decodes as the code word `01` does. -/
theorem mdecIsOnlyALeftInverse : Obligations.MdecIsOnlyALeftInverse := by
  unfold Obligations.MdecIsOnlyALeftInverse
  intro fmt
  have hmdec (b : Bit) : execFrame fmt .mdec (bitFrame [false, b]) = some (.ok (bitFrame [false])) :=
    execFrame_mdec_groups fmt (fun _ => false) id [b]
  exact ⟨hmdec false, execFrame_menc_bitFrame fmt [false], by decide, (hmdec true).trans (hmdec false).symm⟩

/-- Settles O43: decoding keeps the first sub-bit with its error `e1` and drops the second with `e2`. -/
theorem channelBitErrorEffect : Obligations.ChannelBitErrorEffect := by
  unfold Obligations.ChannelBitErrorEffect
  intro fmt g
  have hwrong : ∀ b e1 : Bit, (b ^^ e1) ≠ b ↔ e1 = true := by decide
  exact ⟨execFrame_mdec_groups fmt (fun x => x.1 ^^ x.2.1) (fun x => !x.1 ^^ x.2.2) g,
    fun x _ => hwrong x.1 x.2.1⟩

end Sys2Proof.Machine
end

section
/-! The laws of the mapper (spec/41_mapper.md R93, R96, R97): what determines `AQ`, the five values a mapped sample can
take, and the signs by which QPSK points differ. -/

namespace Sys2Proof.Machine

/-! ## R93's inequalities determine `AQ` -/

/-- R93's inequalities, in the integers. -/
theorem aq_bounds (fmt : Format) :
    (2 * aq fmt - 1) ^ 2 < (2 : Int) ^ (2 * fmt.f + 1) ∧ (2 : Int) ^ (2 * fmt.f + 1) < (2 * aq fmt + 1) ^ 2 := by
  obtain ⟨-, hf, -⟩ := Format.bounds fmt
  obtain ⟨hpos, hlower, hupper⟩ := aqNat_bounds hf
  have hsub : ((2 * aqNat fmt.f - 1 : Nat) : Int) = 2 * (aqNat fmt.f : Int) - 1 := by omega
  rw [aq, ← hsub]
  exact ⟨mod_cast hlower, mod_cast hupper⟩

/-- Two integers that meet one of R93's inequalities each are ordered; used in both directions, it gives uniqueness. -/
theorem le_of_sq_lt_of_lt_sq {n a b : Int} (hb : 0 ≤ b) (hlower : (2 * a - 1) ^ 2 < n)
    (hupper : n < (2 * b + 1) ^ 2) : a ≤ b := by
  have hlt : 2 * a - 1 < 2 * b + 1 := lt_of_pow_lt_pow_left₀ 2 (by omega) (hlower.trans hupper)
  omega

/-- Settles O44: the computed `AQ` meets the inequalities, and two integers that meet them bound each other. -/
theorem aqIsNearestInteger : Obligations.AqIsNearestInteger := by
  unfold Obligations.AqIsNearestInteger
  refine ⟨fun fmt => ?_, by decide⟩
  have hpos := one_le_aq fmt
  obtain ⟨hlower, hupper⟩ := aq_bounds fmt
  refine ⟨hpos, hlower, hupper, fun a ha halower haupper => ?_⟩
  exact le_antisymm (le_of_sq_lt_of_lt_sq (by omega) halower hupper) (le_of_sq_lt_of_lt_sq (by omega) hlower haupper)

/-! ## The samples the mapper emits -/

/-- R96's five values. -/
def mapperSamples (fmt : Format) : List Int := [-one fmt, -aq fmt, 0, aq fmt, one fmt]

theorem amp_mem_mapperSamples {fmt : Format} {a : Int} (c : Bit) (h : a = one fmt ∨ a = aq fmt) :
    amp c a ∈ mapperSamples fmt := by
  obtain rfl | rfl := h
  all_goals cases c <;> simp [amp, mapperSamples]

theorem sampleInRange_of_mem_mapperSamples {fmt : Format} {a : Int} (h : a ∈ mapperSamples fmt) :
    sampleInRange fmt.w a = true := by
  have hpos := one_le_aq fmt
  have hlt := aq_lt_one fmt
  simp only [mapperSamples, List.mem_cons, List.not_mem_nil, or_false] at h
  exact sampleInRange_of_abs_le_one (abs_le.mpr ⟨by omega, by omega⟩)

/-- MAPB emits BPSK points only. -/
theorem exists_bpskPoint_of_mem_execFrame {fmt : Format} {x y : List Item} {v : Item}
    (h : execFrame fmt .mapb x = some (.ok y)) (hv : v ∈ y) : ∃ c, v = .symbol (bpskPoint fmt c) := by
  obtain ⟨c, -, hy⟩ := Option.map_eq_some_iff.mp h
  obtain rfl := FrameResult.ok.inj hy
  simp only [symbolFrame, mapbFrame, List.mem_map] at hv
  obtain ⟨-, ⟨b, -, rfl⟩, rfl⟩ := hv
  exact ⟨b, rfl⟩

/-- What an operation on pairs emits comes from one of the groups. -/
theorem exists_mem_output_of_mem_pairOutputs {output : Bit → Bit → List Item} {c : List Bit} {v : Item}
    (h : v ∈ pairOutputs output c) : ∃ a b, v ∈ output a b := by
  induction c using pairOutputs.induct with
  | case1 | case2 => simp [pairOutputs] at h
  | case3 a b c ih =>
    obtain hv | hv := List.mem_append.mp h
    · exact ⟨a, b, hv⟩
    · exact ih hv

theorem pairedResult_eq_ok {o : Option (List Item)} {y : List Item} : pairedResult o = .ok y ↔ o = some y := by
  cases o <;> simp [pairedResult]

/-- MAPQ emits QPSK points only. -/
theorem exists_qpskPoint_of_mem_execFrame {fmt : Format} {x y : List Item} {v : Item}
    (h : execFrame fmt .mapq x = some (.ok y)) (hv : v ∈ y) : ∃ c0 c1, v = .symbol (qpskPoint fmt c0 c1) := by
  obtain ⟨c, -, hy⟩ := Option.map_eq_some_iff.mp h
  rw [pairedResult_eq_ok, mapqFrame_eq_pairedFrame, pairedFrame, Option.ite_none_right_eq_some] at hy
  obtain ⟨-, hy⟩ := hy
  obtain rfl := Option.some.inj hy
  obtain ⟨c0, c1, hv⟩ := exists_mem_output_of_mem_pairOutputs hv
  exact ⟨c0, c1, List.mem_singleton.mp hv⟩

/-- The components of the points are `ONE` or `AQ` with a sign, or 0. -/
theorem exists_symbol_of_mem_execFrame {fmt : Format} {i : Instr} {x y : List Item} {v : Item}
    (hi : i = .mapb ∨ i = .mapq) (h : execFrame fmt i x = some (.ok y)) (hv : v ∈ y) :
    ∃ p, v = .symbol p ∧ p.i ∈ mapperSamples fmt ∧ p.q ∈ mapperSamples fmt := by
  obtain rfl | rfl := hi
  · obtain ⟨c, rfl⟩ := exists_bpskPoint_of_mem_execFrame h hv
    exact ⟨_, rfl, amp_mem_mapperSamples c (.inl rfl), by simp [bpskPoint, mapperSamples]⟩
  · obtain ⟨c0, c1, rfl⟩ := exists_qpskPoint_of_mem_execFrame h hv
    exact ⟨_, rfl, amp_mem_mapperSamples c0 (.inr rfl), amp_mem_mapperSamples c1 (.inr rfl)⟩

/-- Settles O46: every emitted item is a symbol of two of the five values, which are all in range. -/
theorem mapperRange : Obligations.MapperRange := by
  unfold Obligations.MapperRange
  constructor
  · intro fmt
    obtain ⟨hw, -, -⟩ := Format.bounds fmt
    exact ⟨one_le_aq fmt, aq_lt_one fmt, one_eq_two_pow fmt, one_le_two_pow_sub fmt,
      pow_lt_pow_right₀ (by decide) (by omega), fun a ha => sampleInRange_of_mem_mapperSamples ha⟩
  · intro fmt i x y hi h v hv
    obtain ⟨p, rfl, hpi, hpq⟩ := exists_symbol_of_mem_execFrame hi h hv
    refine ⟨p, rfl, ?_, hpi, hpq⟩
    rw [Symbol.wf, sampleInRange_of_mem_mapperSamples hpi, sampleInRange_of_mem_mapperSamples hpq, Bool.and_self]

/-! ## The signs of the QPSK points -/

section Amp
variable {a : Int} {c d : Bit}

theorem amp_eq_amp_iff (ha : a ≠ 0) : amp c a = amp d a ↔ c = d := by
  have hsign : a ≠ -a := by omega
  cases c <;> cases d <;> simp [amp, hsign, hsign.symm]

theorem neg_amp (c : Bit) (a : Int) : -amp c a = amp (!c) a := by
  cases c
  · exact neg_neg a
  · rfl

theorem amp_eq_neg_amp_iff (ha : a ≠ 0) : amp c a = -amp d a ↔ c ≠ d := by
  rw [neg_amp, amp_eq_amp_iff ha, Bool.eq_not]

end Amp

/-- Settles O47: since `AQ` is not 0, a component is that of another point, or its negation, by one bit alone. -/
theorem grayMapping : Obligations.GrayMapping := by
  unfold Obligations.GrayMapping
  intro fmt c0 c1 d0 d1
  have haq : aq fmt ≠ 0 := Int.ne_of_gt (one_le_aq fmt)
  simp only [qpskPoint, amp_eq_amp_iff haq, amp_eq_neg_amp_iff haq, and_self]

end Sys2Proof.Machine
end

section
/-! The detector (spec/42_detector.md R102, R104, R105): its sign decision on a component against the distance to the
two amplitudes that the component can stand for, on clean components and on noisy ones. -/

namespace Sys2Proof.Machine

/-! ## The frames of the detector and of the mapper -/

section Detector
variable {fmt : Format}

theorem execFrame_detb_symbolFrame {r : List Symbol} (h : ∀ p ∈ r, p.wf fmt = true) :
    execFrame fmt .detb (symbolFrame r) = some (.ok (bitFrame (detbFrame r))) := by
  rw [execFrame, symbolsOf_symbolFrame h, Option.map_some]

theorem execFrame_detq_symbolFrame {r : List Symbol} (h : ∀ p ∈ r, p.wf fmt = true) :
    execFrame fmt .detq (symbolFrame r) = some (.ok (bitFrame (detqFrame r))) := by
  rw [execFrame, symbolsOf_symbolFrame h, Option.map_some]

theorem execFrame_detb_symbol {p : Symbol} (h : p.wf fmt = true) :
    execFrame fmt .detb [.symbol p] = some (.ok [.bit (ge0 p.i)]) :=
  execFrame_detb_symbolFrame (r := [p]) (by simpa using h)

theorem execFrame_detq_symbol {p : Symbol} (h : p.wf fmt = true) :
    execFrame fmt .detq [.symbol p] = some (.ok [.bit (ge0 p.i), .bit (ge0 p.q)]) :=
  execFrame_detq_symbolFrame (r := [p]) (by simpa using h)

end Detector

theorem execFrame_mapb_bitFrame (fmt : Format) (c : List Bit) :
    execFrame fmt .mapb (bitFrame c) = some (.ok (symbolFrame (mapbFrame fmt c))) := by
  rw [execFrame, bitsOf_bitFrame, Option.map_some]

theorem execFrame_mapq_bitFrame (fmt : Format) (c : List Bit) :
    execFrame fmt .mapq (bitFrame c) = some (pairedResult ((mapqFrame fmt c).map symbolFrame)) := by
  rw [execFrame, bitsOf_bitFrame, Option.map_some]

/-! ## Clean symbols -/

theorem Symbol.wf_of_mem_mapperSamples {fmt : Format} {p : Symbol} (hi : p.i ∈ mapperSamples fmt)
    (hq : p.q ∈ mapperSamples fmt) : p.wf fmt = true := by
  rw [Symbol.wf, sampleInRange_of_mem_mapperSamples hi, sampleInRange_of_mem_mapperSamples hq, Bool.and_self]

theorem bpskPoint_wf (fmt : Format) (c : Bit) : (bpskPoint fmt c).wf fmt = true :=
  Symbol.wf_of_mem_mapperSamples (amp_mem_mapperSamples c (.inl rfl)) (by simp [bpskPoint, mapperSamples])

theorem qpskPoint_wf (fmt : Format) (c0 c1 : Bit) : (qpskPoint fmt c0 c1).wf fmt = true :=
  Symbol.wf_of_mem_mapperSamples (amp_mem_mapperSamples c0 (.inr rfl)) (amp_mem_mapperSamples c1 (.inr rfl))

theorem ge0_eq_true_iff {x : Int} : ge0 x = true ↔ 0 ≤ x := decide_eq_true_iff

theorem ge0_eq_false_iff {x : Int} : ge0 x = false ↔ x < 0 := decide_eq_false_iff_not.trans not_le

/-- R105 for one component: the margins differ by one unit, because the threshold 0 itself decides 1. -/
theorem ge0_amp_add_eq_iff (c : Bit) (a n : Int) :
    ge0 (amp c a + n) = c ↔ if c then -a ≤ n else n ≤ a - 1 := by
  cases c with
  | true =>
    simp only [ge0_eq_true_iff, amp, if_true]
    omega
  | false =>
    simp only [ge0_eq_false_iff, amp, Bool.false_eq_true, if_false]
    omega

/-- A component without noise is within the margin of either sign. -/
theorem ge0_amp {a : Int} (ha : 0 < a) (c : Bit) : ge0 (amp c a) = c := by
  have hmargin := ge0_amp_add_eq_iff c a 0
  rw [add_zero] at hmargin
  refine hmargin.mpr ?_
  split <;> omega

theorem aq_pos (fmt : Format) : 0 < aq fmt := one_le_aq fmt

theorem one_pos (fmt : Format) : 0 < one fmt := (aq_pos fmt).trans (aq_lt_one fmt)

theorem bpskDecision_bpskPoint (fmt : Format) (c : Bit) : bpskDecision (bpskPoint fmt c) = c :=
  ge0_amp (one_pos fmt) c

theorem qpskDecision_qpskPoint (fmt : Format) (c0 c1 : Bit) : qpskDecision (qpskPoint fmt c0 c1) = [c0, c1] := by
  rw [qpskDecision, qpskPoint, ge0_amp (aq_pos fmt), ge0_amp (aq_pos fmt)]

theorem detbFrame_mapbFrame (fmt : Format) (c : List Bit) : detbFrame (mapbFrame fmt c) = c := by
  have hinverse : bpskDecision ∘ bpskPoint fmt = id := funext (bpskDecision_bpskPoint fmt)
  rw [detbFrame, mapbFrame, List.map_map, hinverse, List.map_id]

/-- MAPQ maps every even frame, to symbols of the format that DETQ reads back. -/
theorem exists_mapqFrame_detqFrame (fmt : Format) {c : List Bit} (h : c.length % 2 = 0) :
    ∃ s, mapqFrame fmt c = some s ∧ (∀ p ∈ s, p.wf fmt = true) ∧ detqFrame s = c := by
  induction c using mapqFrame.induct with
  | case1 => exact ⟨[], rfl, by simp, rfl⟩
  | case2 b => simp at h
  | case3 c0 c1 c ih =>
    obtain ⟨s, hmap, hwf, hdet⟩ := ih (by simpa [Nat.add_assoc] using h)
    refine ⟨qpskPoint fmt c0 c1 :: s, by rw [mapqFrame, hmap, Option.map_some], ?_, ?_⟩
    · exact List.forall_mem_cons.mpr ⟨qpskPoint_wf fmt c0 c1, hwf⟩
    · rw [detqFrame, qpskDecision_qpskPoint, hdet]
      rfl

/-- Settles O49: the points are symbols of the format, and the sign of an amplitude is the bit that chose it. -/
theorem detectorInvertsMapper : Obligations.DetectorInvertsMapper := by
  unfold Obligations.DetectorInvertsMapper
  constructor
  · intro fmt c
    refine ⟨_, execFrame_mapb_bitFrame fmt c, ?_⟩
    have hwf : ∀ p ∈ mapbFrame fmt c, p.wf fmt = true := List.forall_mem_map.mpr fun b _ => bpskPoint_wf fmt b
    rw [execFrame_detb_symbolFrame hwf, detbFrame_mapbFrame]
  · intro fmt c heven
    obtain ⟨s, hmap, hwf, hdet⟩ := exists_mapqFrame_detqFrame fmt heven
    refine ⟨symbolFrame s, ?_, ?_⟩
    · rw [execFrame_mapq_bitFrame, hmap, Option.map_some, pairedResult]
    · rw [execFrame_detq_symbolFrame hwf, hdet]

/-! ## Noisy symbols -/

/-- Settles O50: each decision reads one component, an amplitude plus the noise on it. -/
theorem noiseMargin : Obligations.NoiseMargin := by
  unfold Obligations.NoiseMargin
  constructor
  · intro fmt b n hwf
    exact ⟨_, execFrame_detb_symbol hwf, ge0_amp_add_eq_iff b (one fmt) n.i⟩
  · intro fmt c0 c1 n hwf
    exact ⟨_, _, execFrame_detq_symbol hwf, ge0_amp_add_eq_iff c0 (aq fmt) n.i, ge0_amp_add_eq_iff c1 (aq fmt) n.q⟩

/-! ## Minimum distance -/

/-- How much farther a component is from the amplitude that the sign decision rejects (R102). -/
theorem sq_sub_amp_not_ge0 (x a : Int) : (x - amp (!ge0 x) a) ^ 2 = (x - amp (ge0 x) a) ^ 2 + 4 * a * |x| := by
  cases h : ge0 x with
  | true =>
    rw [abs_of_nonneg (ge0_eq_true_iff.mp h)]
    simp only [amp, Bool.not_true, Bool.false_eq_true, if_true, if_false]
    ring
  | false =>
    rw [abs_of_neg (ge0_eq_false_iff.mp h)]
    simp only [amp, Bool.not_false, Bool.false_eq_true, if_true, if_false]
    ring

/-- The decided amplitude is strictly nearer, off the tie. -/
theorem sq_sub_amp_ge0_lt {x a : Int} (ha : 0 < a) (hx : x ≠ 0) :
    (x - amp (ge0 x) a) ^ 2 < (x - amp (!ge0 x) a) ^ 2 := by
  have habs : 0 < |x| := abs_pos.mpr hx
  rw [sq_sub_amp_not_ge0]
  exact lt_add_of_pos_right _ (by positivity)

/-- No amplitude is nearer than the decided one. -/
theorem sq_sub_amp_ge0_le {a : Int} (x : Int) (ha : 0 < a) (c : Bit) : (x - amp (ge0 x) a) ^ 2 ≤ (x - amp c a) ^ 2 := by
  obtain rfl | rfl : c = ge0 x ∨ c = !ge0 x := Bool.eq_or_eq_not c (ge0 x)
  · exact le_rfl
  · rw [sq_sub_amp_not_ge0]
    exact le_add_of_nonneg_right (by positivity)

/-- A component 0 is equally near to both amplitudes. -/
theorem sq_zero_sub_amp (c : Bit) (a : Int) : (0 - amp c a) ^ 2 = a ^ 2 := by
  rw [zero_sub, neg_sq, ← sq_abs, abs_amp, sq_abs]

theorem sqDistance_qpskPoint (fmt : Format) (r : Symbol) (c0 c1 : Bit) :
    sqDistance r (qpskPoint fmt c0 c1) = (r.i - amp c0 (aq fmt)) ^ 2 + (r.q - amp c1 (aq fmt)) ^ 2 := rfl

theorem sqDistance_bpskPoint (fmt : Format) (r : Symbol) (c : Bit) :
    sqDistance r (bpskPoint fmt c) = (r.i - amp c (one fmt)) ^ 2 + r.q ^ 2 := by
  rw [sqDistance, bpskPoint, sub_zero]

/-- Settles O48: the squared distance is a sum of one term for each component, and each bit minimises its own term. -/
theorem signDecisionIsMinimumDistance : Obligations.SignDecisionIsMinimumDistance := by
  unfold Obligations.SignDecisionIsMinimumDistance
  intro fmt r hwf
  have haq := aq_pos fmt
  have hone := one_pos fmt
  constructor
  · intro a b h
    rw [execFrame_detq_symbol hwf] at h
    obtain ⟨rfl, rfl⟩ : ge0 r.i = a ∧ ge0 r.q = b := by simpa using h
    simp only [sqDistance_qpskPoint]
    refine ⟨fun c0 c1 => ?_, fun c1 hi => ?_, fun c0 hq => ?_, fun hi => ⟨?_, fun c1 => ?_⟩,
      fun hq => ⟨?_, fun c0 => ?_⟩⟩
    · exact add_le_add (sq_sub_amp_ge0_le _ haq c0) (sq_sub_amp_ge0_le _ haq c1)
    · exact add_lt_add_of_lt_of_le (sq_sub_amp_ge0_lt haq hi) (sq_sub_amp_ge0_le _ haq c1)
    · exact add_lt_add_of_le_of_lt (sq_sub_amp_ge0_le _ haq c0) (sq_sub_amp_ge0_lt haq hq)
    · exact ge0_eq_true_iff.mpr hi.ge
    · rw [hi, sq_zero_sub_amp, sq_zero_sub_amp]
    · exact ge0_eq_true_iff.mpr hq.ge
    · rw [hq, sq_zero_sub_amp, sq_zero_sub_amp]
  · intro a h
    rw [execFrame_detb_symbol hwf] at h
    obtain rfl : ge0 r.i = a := by simpa using h
    simp only [sqDistance_bpskPoint]
    refine ⟨fun c => ?_, fun hi => ?_, fun hi => ⟨?_, ?_⟩⟩
    · exact add_le_add_left (sq_sub_amp_ge0_le _ hone c) _
    · exact add_lt_add_left (sq_sub_amp_ge0_lt hone hi) _
    · exact ge0_eq_true_iff.mpr hi.ge
    · rw [hi, sq_zero_sub_amp, sq_zero_sub_amp]

end Sys2Proof.Machine
end

section
/-! The chains of two frames (spec/43_chains.md R110 to R114, R116): what the transmitters send for each data bit, what
the receivers decide on each symbol, and the two links, clean and noisy. -/

namespace Sys2Proof.Machine

theorem execChain_of_ok {fmt : Format} {first second : Instr} {x y : List Item}
    (h : execFrame fmt first x = some (.ok y)) : execChain fmt first second x = execFrame fmt second y := by
  rw [execChain, h]

/-! ## Lists of pairs -/

section Pairs
variable {α β : Type} (f g : α → β)

theorem length_flatMap_pair (xs : List α) : (xs.flatMap fun a => [f a, g a]).length = 2 * xs.length := by
  simp [List.length_flatMap, mul_comm]

theorem getElem?_flatMap_pair (xs : List α) (i : Nat) :
    (xs.flatMap fun a => [f a, g a])[2 * i]? = xs[i]?.map f ∧
      (xs.flatMap fun a => [f a, g a])[2 * i + 1]? = xs[i]?.map g := by
  induction xs generalizing i with
  | nil => exact ⟨rfl, rfl⟩
  | cons a xs ih =>
    cases i with
    | zero => exact ⟨rfl, rfl⟩
    | succ i => exact ih i

end Pairs

/-! ## The transmitters -/

theorem amp_eq_sgn_mul (c : Bit) (a : Int) : amp c a = sgn c * a := by
  cases c
  · exact (neg_one_mul a).symm
  · exact (one_mul a).symm

theorem amp_add_amp_not (c : Bit) (a : Int) : amp c a + amp (!c) a = 0 := by
  rw [← neg_amp, add_neg_cancel]

/-- R110: the symbols that TXB sends for `x`. -/
def txbFrame (fmt : Format) (x : List Bit) : List Symbol := x.flatMap fun b => [bpskPoint fmt b, bpskPoint fmt (!b)]

/-- R111: the symbols that TXQ sends for `x`. -/
def txqFrame (fmt : Format) (x : List Bit) : List Symbol := x.map fun b => qpskPoint fmt b (!b)

section Transmit
variable (fmt : Format) (x : List Bit)

theorem mapbFrame_codeWords : mapbFrame fmt (x.flatMap codeWord) = txbFrame fmt x := List.map_flatMap

/-- One Manchester group is one QPSK pair. -/
theorem mapqFrame_codeWords : mapqFrame fmt (x.flatMap codeWord) = some (txqFrame fmt x) := by
  induction x with
  | nil => rfl
  | cons b x ih =>
    have hgroup : mapqFrame fmt ((b :: x).flatMap codeWord) =
        (mapqFrame fmt (x.flatMap codeWord)).map (qpskPoint fmt b (!b) :: ·) := rfl
    rw [hgroup, ih, Option.map_some, txqFrame, txqFrame, List.map_cons]

theorem execFrame_mapb_codeWords :
    execFrame fmt .mapb (bitFrame (x.flatMap codeWord)) = some (.ok (symbolFrame (txbFrame fmt x))) := by
  rw [execFrame_mapb_bitFrame, mapbFrame_codeWords]

theorem execFrame_mapq_codeWords :
    execFrame fmt .mapq (bitFrame (x.flatMap codeWord)) = some (.ok (symbolFrame (txqFrame fmt x))) := by
  rw [execFrame_mapq_bitFrame, mapqFrame_codeWords, Option.map_some, pairedResult]

/-- TXB maps the code words of `x`. -/
theorem execTxb_eq_mapb : execTxb fmt (bitFrame x) = execFrame fmt .mapb (bitFrame (x.flatMap codeWord)) :=
  execChain_of_ok (execFrame_menc_bitFrame fmt x)

/-- TXQ maps the code words of `x`. -/
theorem execTxq_eq_mapq : execTxq fmt (bitFrame x) = execFrame fmt .mapq (bitFrame (x.flatMap codeWord)) :=
  execChain_of_ok (execFrame_menc_bitFrame fmt x)

theorem execTxb_bitFrame : execTxb fmt (bitFrame x) = some (.ok (symbolFrame (txbFrame fmt x))) :=
  (execTxb_eq_mapb fmt x).trans (execFrame_mapb_codeWords fmt x)

theorem execTxq_bitFrame : execTxq fmt (bitFrame x) = some (.ok (symbolFrame (txqFrame fmt x))) :=
  (execTxq_eq_mapq fmt x).trans (execFrame_mapq_codeWords fmt x)

theorem txbFrame_length : (txbFrame fmt x).length = 2 * x.length := length_flatMap_pair _ _ x

theorem txqFrame_length : (txqFrame fmt x).length = x.length := List.length_map _

end Transmit

section SentSymbol
variable {fmt : Format} {x : List Bit} {i : Nat} {b : Bit}

theorem txbFrame_getElem? (h : x[i]? = some b) :
    (txbFrame fmt x)[2 * i]? = some (bpskPoint fmt b) ∧
      (txbFrame fmt x)[2 * i + 1]? = some (bpskPoint fmt (!b)) := by
  have hpair := getElem?_flatMap_pair (bpskPoint fmt) (fun b => bpskPoint fmt (!b)) x i
  rwa [h] at hpair

theorem txqFrame_getElem? (h : x[i]? = some b) : (txqFrame fmt x)[i]? = some (qpskPoint fmt b (!b)) := by
  rw [txqFrame, List.getElem?_map, h, Option.map_some]

end SentSymbol

/-- The two symbols of a data bit are opposite, so each bit adds 0. -/
theorem txbFrame_sum_i (fmt : Format) (x : List Bit) : ((txbFrame fmt x).map Symbol.i).sum = 0 := by
  induction x with
  | nil => rfl
  | cons b x ih =>
    have hsum : ((txbFrame fmt (b :: x)).map Symbol.i).sum =
        amp b (one fmt) + (amp (!b) (one fmt) + ((txbFrame fmt x).map Symbol.i).sum) := rfl
    rw [hsum, ih, add_zero, amp_add_amp_not]

/-- Settles O53: the sent symbols are the points of each data bit and of its complement. -/
theorem txbMeaning : Obligations.TxbMeaning := by
  unfold Obligations.TxbMeaning
  intro fmt x
  refine ⟨_, txbFrame fmt x, execFrame_menc_bitFrame fmt x, execFrame_mapb_codeWords fmt x, execTxb_bitFrame fmt x,
    txbFrame_length fmt x, fun i b hb => ?_, txbFrame_sum_i fmt x⟩
  rw [← amp_eq_sgn_mul, neg_amp]
  exact txbFrame_getElem? hb

/-- Settles O54: a sent symbol is the point of a data bit and its complement, whose amplitudes are opposite. -/
theorem txqMeaning : Obligations.TxqMeaning := by
  unfold Obligations.TxqMeaning
  intro fmt x
  refine ⟨_, txqFrame fmt x, execFrame_menc_bitFrame fmt x, execFrame_mapq_codeWords fmt x, execTxq_bitFrame fmt x,
    txqFrame_length fmt x, fun i b hb => ?_, List.forall_mem_map.mpr fun b _ => amp_add_amp_not b (aq fmt)⟩
  rw [← amp_eq_sgn_mul, neg_amp]
  exact txqFrame_getElem? hb

/-! ## The receivers -/

/-- R81 on an even frame: the bits at even index. -/
theorem exists_mdecFrame_of_even {d : List Bit} (h : d.length % 2 = 0) :
    ∃ y, mdecFrame d = some y ∧ y.length = d.length / 2 ∧ ∀ i : Nat, y[i]? = d[2 * i]? := by
  induction d using mdecFrame.induct with
  | case1 => exact ⟨[], rfl, rfl, fun _ => rfl⟩
  | case2 a => simp at h
  | case3 a b d ih =>
    obtain ⟨y, hdec, hlen, hget⟩ := ih (by simpa [Nat.add_assoc] using h)
    refine ⟨a :: y, by rw [mdecFrame, hdec, Option.map_some, decodeGroup], by simp [hlen, Nat.add_assoc], fun i => ?_⟩
    cases i with
    | zero => rfl
    | succ i => exact hget i

theorem execFrame_mdec_of_odd (fmt : Format) {c : List Bit} (h : c.length % 2 = 1) :
    execFrame fmt .mdec (bitFrame c) = some (.fault .invalidBitLength) := by
  rw [execFrame_mdec_bitFrame, mdecFrame_eq_pairedFrame, pairedFrame, if_neg (by omega), pairedResult]

section Receive
variable {fmt : Format} {r : List Symbol}

/-- RXB decodes the sign decisions on `I`. -/
theorem execRxb_eq_mdec (h : ∀ p ∈ r, p.wf fmt = true) :
    execRxb fmt (symbolFrame r) = execFrame fmt .mdec (bitFrame (detbFrame r)) :=
  execChain_of_ok (execFrame_detb_symbolFrame h)

/-- RXQ decodes the sign decisions on `I` and `Q`. -/
theorem execRxq_eq_mdec (h : ∀ p ∈ r, p.wf fmt = true) :
    execRxq fmt (symbolFrame r) = execFrame fmt .mdec (bitFrame (detqFrame r)) :=
  execChain_of_ok (execFrame_detq_symbolFrame h)

theorem detbFrame_length (r : List Symbol) : (detbFrame r).length = r.length := List.length_map _

theorem execRxb_of_odd (h : ∀ p ∈ r, p.wf fmt = true) (hodd : r.length % 2 = 1) :
    execRxb fmt (symbolFrame r) = some (.fault .invalidBitLength) :=
  (execRxb_eq_mdec h).trans (execFrame_mdec_of_odd fmt ((detbFrame_length r).symm ▸ hodd))

/-- R112 at an even number of symbols: those at even index are decided by the sign of `I`. -/
theorem exists_execRxb_of_even (h : ∀ p ∈ r, p.wf fmt = true) (heven : r.length % 2 = 0) :
    ∃ y, execRxb fmt (symbolFrame r) = some (.ok (bitFrame y)) ∧ y.length = r.length / 2 ∧
      ∀ i : Nat, y[i]? = r[2 * i]?.map bpskDecision := by
  rw [← detbFrame_length] at heven
  obtain ⟨y, hdec, hlen, hget⟩ := exists_mdecFrame_of_even heven
  refine ⟨y, ?_, detbFrame_length r ▸ hlen, fun i => (hget i).trans List.getElem?_map⟩
  rw [execRxb_eq_mdec h, execFrame_mdec_bitFrame, hdec, Option.map_some, pairedResult]

/-- R113: every symbol is one group, which the sign of its `I` decides. -/
theorem execRxq_symbolFrame (h : ∀ p ∈ r, p.wf fmt = true) :
    execRxq fmt (symbolFrame r) = some (.ok (bitFrame (r.map bpskDecision))) := by
  rw [execRxq_eq_mdec h, detqFrame_eq_flatMap]
  exact execFrame_mdec_groups fmt bpskDecision (fun p => ge0 p.q) r

end Receive

/-- Settles O55: DETB gives one bit a symbol, and MDEC keeps those at even index. -/
theorem rxbMeaning : Obligations.RxbMeaning := by
  unfold Obligations.RxbMeaning
  intro fmt r hwf
  refine ⟨⟨_, execFrame_detb_symbolFrame hwf, execRxb_eq_mdec hwf⟩, execRxb_of_odd hwf, fun heven => ?_⟩
  obtain ⟨y, hrx, hlen, hget⟩ := exists_execRxb_of_even hwf heven
  refine ⟨y, hrx, hlen, fun i p hp => ?_⟩
  rw [hget, hp, Option.map_some, bpskDecision]

/-- Settles O56: DETQ gives a group of two bits a symbol, and MDEC keeps the first of each. -/
theorem rxqMeaning : Obligations.RxqMeaning := by
  unfold Obligations.RxqMeaning
  intro fmt r hwf
  have hdet : detqFrame r = r.flatMap fun p => [ge0 p.i, ge0 p.q] := detqFrame_eq_flatMap r
  refine ⟨detqFrame r, r.map bpskDecision, execFrame_detq_symbolFrame hwf, ?_, execRxq_eq_mdec hwf,
    execRxq_symbolFrame hwf, List.length_map _, fun i p hp => ⟨?_, ?_⟩⟩
  · rw [hdet, length_flatMap_pair]
  · rw [List.getElem?_map, hp, Option.map_some, bpskDecision]
  · rw [hdet, (getElem?_flatMap_pair _ _ r i).2, hp, Option.map_some]

/-! ## The links -/

/-- Settles O57: the detectors give back the code words they were sent, and these decode to `x`. -/
theorem loopBack : Obligations.LoopBack := by
  unfold Obligations.LoopBack
  intro fmt x
  have hlen : (x.flatMap codeWord).length = 2 * x.length := length_flatMap_pair id (fun b => !b) x
  obtain ⟨hbpsk, hqpsk⟩ := detectorInvertsMapper
  obtain ⟨sB, hmapb, hdetb⟩ := hbpsk fmt (x.flatMap codeWord)
  obtain ⟨sQ, hmapq, hdetq⟩ := hqpsk fmt (x.flatMap codeWord) (by omega)
  have hdecode := execFrame_mdec_codeWords fmt x
  exact ⟨_, sB, sQ, execFrame_menc_bitFrame fmt x,
    (execTxb_eq_mapb fmt x).trans hmapb, hdetb, (execChain_of_ok hdetb).trans hdecode,
    (execTxq_eq_mapq fmt x).trans hmapq, hdetq, (execChain_of_ok hdetq).trans hdecode⟩

theorem symbolFrame_injective : Function.Injective symbolFrame :=
  List.map_injective_iff.mpr fun _ _ => Item.symbol.inj

theorem eq_of_ok_symbolFrame_eq {s t : List Symbol}
    (h : some (FrameResult.ok (symbolFrame s)) = some (.ok (symbolFrame t))) : s = t :=
  symbolFrame_injective (FrameResult.ok.inj (Option.some.inj h))

/-- R105 for a symbol of a received frame: the decision on it is the bit that chose the `I` sent exactly when the noise
on that `I` is within the margin. -/
theorem bpskDecision_noisy_eq_iff {s n : List Symbol} {j : Nat} {p m : Symbol} {b : Bit} {a : Int}
    (hs : s[j]? = some p) (hn : n[j]? = some m) (hp : p.i = amp b a) :
    (List.zipWith addNoise s n)[j]?.map bpskDecision = some b ↔ if b then -a ≤ m.i else m.i ≤ a - 1 := by
  have hdecision : bpskDecision (addNoise p m) = ge0 (amp b a + m.i) := by rw [bpskDecision, addNoise, hp]
  rw [List.getElem?_zipWith, hs, hn, Option.map_some, hdecision, Option.some_inj, ge0_amp_add_eq_iff]

/-- Settles O58: the symbol that decides a data bit was sent with the amplitude of that bit as its `I`. -/
theorem noisyLinkDecodesByFirstNoise : Obligations.NoisyLinkDecodesByFirstNoise := by
  unfold Obligations.NoisyLinkDecodesByFirstNoise
  intro fmt x s n hlen hwf
  have hreceived : (List.zipWith addNoise s n).length = s.length := by rw [List.length_zipWith, hlen, min_self]
  constructor
  · intro htx
    obtain rfl : txbFrame fmt x = s := eq_of_ok_symbolFrame_eq ((execTxb_bitFrame fmt x).symm.trans htx)
    rw [txbFrame_length] at hreceived
    obtain ⟨y, hrx, hy, hget⟩ := exists_execRxb_of_even hwf (by omega)
    refine ⟨y, hrx, by omega, fun i b m hb hm => ?_⟩
    rw [hget]
    exact bpskDecision_noisy_eq_iff (txbFrame_getElem? hb).1 hm rfl
  · intro htx
    obtain rfl : txqFrame fmt x = s := eq_of_ok_symbolFrame_eq ((execTxq_bitFrame fmt x).symm.trans htx)
    rw [txqFrame_length] at hreceived
    refine ⟨_, execRxq_symbolFrame hwf, (List.length_map _).trans hreceived, fun i b m hb hm => ?_⟩
    rw [List.getElem?_map]
    exact bpskDecision_noisy_eq_iff (txqFrame_getElem? hb) hm rfl

end Sys2Proof.Machine
end

section
/-! The status port (spec/60_exceptions.md R155): what each event adds to the statuses delivered so far. -/

namespace Sys2Proof.Machine

/-- Each operation delivers at END the status that R46 gives for its code. -/
theorem statusOf_eq_statusAtEnd (i : Instr) (s : State) : statusOf i s = statusAtEnd (encode i) s.phase := by
  cases i with
  | menc | mapb | detb | detq => rfl
  | mdec | mapq => cases hp : s.phase <;> simp [statusOf, statusPaired, statusAtEnd, encode, hp]
  | reserved v => cases v <;> rfl

theorem statusOf_decode (op : BitVec 3) (s : State) : statusOf (decode op) s = statusAtEnd op s.phase := by
  rw [statusOf_eq_statusAtEnd, encode_decode]

theorem State.statuses_congr {s t : State} (h : t.reports = s.reports) : t.statuses = s.statuses :=
  congrArg (List.filterMap Report.status) h

theorem State.closeFrame_statuses (st : Status) (s : State) : (s.closeFrame st).statuses = s.statuses ++ [st] := by
  simp [State.statuses]

/-- The report of a frame that RESET cuts short has no status (R182). -/
theorem State.resetBlock_statuses (s : State) : s.resetBlock.statuses = s.statuses := by
  cases hb : s.busy <;> simp [State.statuses, hb]

/-- Settles O22, by the kind of event the step consumes. -/
theorem statusOnlyAtEnd : Obligations.StatusOnlyAtEnd := by
  unfold Obligations.StatusOnlyAtEnd
  refine ⟨fun s t e rest hp h => ?_, Status.code_ne_three⟩
  obtain ⟨op, rest', hp', -, rfl⟩ | ⟨v, rest', hp', -, hitem⟩ | ⟨rest', hp', -, rfl⟩ | ⟨rest', hp', rfl⟩ := step_next h
  all_goals
    obtain ⟨rfl, rfl⟩ := List.cons.inj (hp.symm.trans hp')
  case inl => exact (List.append_nil s.statuses).symm
  case inr.inl =>
    obtain ⟨-, -, -, -, hreports, -⟩ := itemStepOf_frame hitem
    exact (State.statuses_congr hreports).trans (List.append_nil s.statuses).symm
  case inr.inr.inl =>
    rw [statusOf_decode]
    exact State.closeFrame_statuses _ (s.setPending rest)
  case inr.inr.inr =>
    exact (State.resetBlock_statuses (s.setPending rest)).trans (List.append_nil s.statuses).symm

end Sys2Proof.Machine
end

section
/-! The RESET event (spec/70_reset_and_hazards.md R180, R181). -/

namespace Sys2Proof.Machine

/-- RESET is served whatever the state is: it selects no operation, so neither `BUSY` nor `OPL` is read. -/
theorem step_reset {s : State} {rest : List Event} (hp : s.pending = .reset :: rest) :
    step s = .next (s.setPending rest).resetBlock := by
  have hselected : s.selected = none := by simp [State.selected, hp]
  simp [step, hselected, unserved_reset hp]

/-- Settles O15: the next state is that of `resetBlock`, which moves the items of an open frame into a report without a
status; an idle block has none to lose. -/
theorem resetMakesIdle : Obligations.ResetMakesIdle := by
  unfold Obligations.ResetMakesIdle
  intro s rest hp
  have hstatuses : (s.setPending rest).resetBlock.statuses = s.statuses := State.resetBlock_statuses _
  have hemitted (hinv : s.Inv) : (s.setPending rest).resetBlock.emitted = s.emitted :=
    State.resetBlock_emitted _ hinv.idle_out
  exact ⟨_, step_reset hp, rfl, rfl, rfl, rfl, hstatuses, hemitted⟩

end Sys2Proof.Machine
end

section
/-! The registers of the block (spec/10_state.md R24 to R26) and its invariant (R32): what the ITEM steps write into
`PHASE` and `HOLD`, and so what every step does to each register. -/

namespace Sys2Proof.Machine

/-! ## `PHASE` and `HOLD` in an ITEM step -/

/-- The codes of the two operations that consume two bits a group. -/
theorem decode_eq_paired_iff {op : BitVec 3} :
    decode op = .mdec ∨ decode op = .mapq ↔ op = 0b001#3 ∨ op = 0b011#3 := by
  simp only [decode_eq_iff, encode]

@[simp] theorem State.pairStep_phase (output : Bit → Bit → List Item) (b : Bit) (s : State) :
    (s.pairStep output b).phase = !s.phase := by
  cases hp : s.phase with
  | false => rw [State.pairStep_first output b hp]; rfl
  | true => rw [State.pairStep_second output b hp]; rfl

theorem State.pairStep_hold (output : Bit → Bit → List Item) (b : Bit) (s : State) :
    (s.pairStep output b).hold = if s.phase = false then b else s.hold := by
  cases hp : s.phase with
  | false => rw [State.pairStep_first output b hp]; rfl
  | true => rw [State.pairStep_second output b hp]; rfl

theorem itemStepOf_phase {i : Instr} {v : Item} {s t : State} (h : itemStepOf i v s = some t) :
    t.phase = if i = .mdec ∨ i = .mapq then !s.phase else s.phase := by
  obtain ⟨hi, output, b, rfl⟩ | ⟨hmdec, hmapq, ys, rfl⟩ := itemStepOf_some h
  · rw [if_pos hi, State.pairStep_phase]
  · rw [if_neg (not_or.mpr ⟨hmdec, hmapq⟩), State.emit_phase]

theorem itemStepOf_hold {i : Instr} {v : Item} {s t : State} (h : itemStepOf i v s = some t) :
    if (i = .mdec ∨ i = .mapq) ∧ s.phase = false then v = .bit t.hold else t.hold = s.hold := by
  cases i with
  | mdec | mapq =>
    obtain ⟨b, hb, rfl⟩ := Option.map_eq_some_iff.mp h
    obtain rfl := takeBit_eq_some.mp hb
    rw [State.pairStep_hold]
    cases s.phase <;> simp
  | menc | mapb | detb | detq | reserved _ =>
    obtain ⟨_, -, rfl⟩ := Option.map_eq_some_iff.mp h
    simp

/-! ## The invariant -/

theorem State.Inv.of_idle {s : State} (hphase : s.phase = false) (hout : s.out = []) : s.Inv where
  idle_phase _ := hphase
  phase_frame h := by simp [hphase] at h
  idle_out _ := hout

theorem State.Inv.of_busy {s : State} (hb : s.busy = true)
    (hopl : s.phase = true → s.opl = 0b001#3 ∨ s.opl = 0b011#3) : s.Inv where
  idle_phase h := by simp [hb] at h
  phase_frame h := ⟨hb, hopl h⟩
  idle_out h := by simp [hb] at h

/-- Settles O25, by the kind of event the step consumes: START opens a frame at `PHASE` 0, END and RESET leave the
block idle with nothing on record, and an ITEM sets `PHASE` only where the latched operation works on pairs. -/
theorem stepKeepsInvariant : Obligations.StepKeepsInvariant := by
  unfold Obligations.StepKeepsInvariant
  intro s t hinv h
  obtain ⟨op, rest, -, -, rfl⟩ | ⟨v, rest, -, hb, hitem⟩ | ⟨rest, -, -, rfl⟩ | ⟨rest, -, rfl⟩ := step_next h
  case inl => exact .of_busy rfl (by simp)
  case inr.inl =>
    obtain ⟨-, hbusy, hopl, -, -, -⟩ := itemStepOf_frame hitem
    refine .of_busy (hbusy.trans hb) fun hphase => ?_
    rw [hopl]
    by_cases hpaired : decode s.opl = .mdec ∨ decode s.opl = .mapq
    · exact decode_eq_paired_iff.mp hpaired
    · rw [itemStepOf_phase hitem, if_neg hpaired] at hphase
      exact (hinv.phase_frame hphase).2
  case inr.inr.inl | inr.inr.inr => exact .of_idle rfl rfl

/-- Settles O26: the block is idle at `PHASE` 0 with nothing on record, and the other values are those of the
definition. -/
theorem resetHasInvariant : Obligations.ResetHasInvariant := by
  unfold Obligations.ResetHasInvariant
  exact ⟨.of_idle rfl rfl, rfl, rfl, rfl, rfl, rfl, rfl, rfl, by decide⟩

/-! ## Each register by the kind of event -/

/-- Settles O17, by the kind of event the step consumes. -/
theorem oplWrittenOnlyByStart : Obligations.OplWrittenOnlyByStart := by
  unfold Obligations.OplWrittenOnlyByStart
  intro s t e rest hp h
  obtain ⟨op, rest', hp', -, rfl⟩ | ⟨v, rest', hp', -, hitem⟩ | ⟨rest', hp', -, rfl⟩ | ⟨rest', hp', rfl⟩ := step_next h
  all_goals
    obtain ⟨rfl, rfl⟩ := List.cons.inj (hp.symm.trans hp')
  case inl | inr.inr.inl => rfl
  case inr.inl =>
    obtain ⟨-, -, hopl, -⟩ := itemStepOf_frame hitem
    exact hopl
  case inr.inr.inr => trivial

/-- An operation on pairs that ends inside a group delivers `InvalidBitLength` (R151). -/
theorem statusAtEnd_of_paired {op : BitVec 3} (h : op = 0b001#3 ∨ op = 0b011#3) :
    statusAtEnd op true = .invalidBitLength := by
  obtain rfl | rfl := h <;> rfl

/-- Settles O18, by the kind of event the step consumes; the fault at END is R46's status of a pair left open. -/
theorem phaseIsGroupPosition : Obligations.PhaseIsGroupPosition := by
  unfold Obligations.PhaseIsGroupPosition
  refine ⟨rfl, fun s t e rest hp h => ?_⟩
  have hstatuses := statusOnlyAtEnd.1 s t e rest hp h
  obtain ⟨op, rest', hp', -, rfl⟩ | ⟨v, rest', hp', -, hitem⟩ | ⟨rest', hp', -, rfl⟩ | ⟨rest', hp', rfl⟩ := step_next h
  all_goals
    obtain ⟨rfl, rfl⟩ := List.cons.inj (hp.symm.trans hp')
  case inl | inr.inr.inr => rfl
  case inr.inl =>
    simpa only [decode_eq_paired_iff, State.setPending_phase] using itemStepOf_phase hitem
  case inr.inr.inl =>
    refine ⟨rfl, fun hopl hphase => ?_⟩
    simpa only [hphase, statusAtEnd_of_paired hopl] using hstatuses

/-- Settles O19, by the kind of event the step consumes. -/
theorem holdWrittenOnlyByFirstBit : Obligations.HoldWrittenOnlyByFirstBit := by
  unfold Obligations.HoldWrittenOnlyByFirstBit
  intro s t e rest hp h
  obtain ⟨op, rest', hp', -, rfl⟩ | ⟨v, rest', hp', -, hitem⟩ | ⟨rest', hp', -, rfl⟩ | ⟨rest', hp', rfl⟩ := step_next h
  all_goals
    obtain ⟨rfl, rfl⟩ := List.cons.inj (hp.symm.trans hp')
  case inl | inr.inr.inl => rfl
  case inr.inl =>
    simpa only [decode_eq_paired_iff, State.setPending_phase, State.setPending_hold] using itemStepOf_hold hitem
  case inr.inr.inr => trivial

end Sys2Proof.Machine
end

section
/-! The well-formed event sequence (spec/20_memory.md R43): `step` serves exactly the events that R43 allows, and what
it leaves of a well-formed sequence is well-formed again. -/

namespace Sys2Proof.Machine

/-! ## The events out of place -/

theorem step_eq_unserved {s : State} (h : s.selected = none) : step s = unserved s := by
  simp [step, h]

section OutOfPlace
variable {s : State} {op : BitVec 3} {v : Item} {rest : List Event}

theorem step_start_busy (hp : s.pending = .start op :: rest) (hb : s.busy = true) :
    step s = .refused .startWhileBusy := by
  rw [step_eq_unserved (by simp [State.selected, hp, hb])]
  simp [unserved, hp]

theorem step_item_idle (hp : s.pending = .item v :: rest) (hb : s.busy = false) :
    step s = .refused .itemWhileIdle := by
  rw [step_eq_unserved (by simp [State.selected, hp, hb])]
  simp [unserved, hp]

theorem step_endFrame_idle (hp : s.pending = .endFrame :: rest) (hb : s.busy = false) :
    step s = .refused .endWhileIdle := by
  rw [step_eq_unserved (by simp [State.selected, hp, hb])]
  simp [unserved, hp]

theorem step_noEvent (hp : s.pending = []) : step s = .refused .noEvent := by
  rw [step_eq_unserved (by simp [State.selected, hp])]
  simp [unserved, hp]

theorem step_item_refused (hp : s.pending = .item v :: rest) (hb : s.busy = true)
    (ht : itemStepOf (decode s.opl) v (s.setPending rest) = none) : step s = .refused .itemWrongType := by
  rw [step_eq_exec (State.selected_item hp hb), exec_item_refused hp hb ht]

end OutOfPlace

/-- Settles O14: such an event selects no operation, so `unserved` answers it. -/
theorem eventsOutOfPlaceRefused : Obligations.EventsOutOfPlaceRefused := by
  unfold Obligations.EventsOutOfPlaceRefused
  exact ⟨fun _ _ _ hb hp => step_start_busy hp hb, fun _ _ _ hb hp => step_item_idle hp hb,
    fun _ _ hb hp => step_endFrame_idle hp hb, fun _ hp => step_noEvent hp⟩

/-! ## The events that R43 allows -/

section Allowed
variable {s : State} {e : Event} {rest : List Event}

theorem State.openOp_of_busy (hb : s.busy = true) : s.openOp = some (decode s.opl) := by
  simp [State.openOp, hb]

theorem State.openOp_of_idle (hb : s.busy = false) : s.openOp = none := by
  simp [State.openOp, hb]

/-- What `step` answers is decided by R43 on the next event alone. -/
theorem step_by_eventsWf (hp : s.pending = e :: rest) :
    (eventsWf s.fmt s.openOp [e] = true ∧ ∃ t, step s = .next t) ∨
    (eventsWf s.fmt s.openOp [e] = false ∧ ∃ r, step s = .refused r) := by
  cases hb : s.busy with
  | false =>
    rw [State.openOp_of_idle hb]
    cases e with
    | start op => exact .inl ⟨rfl, _, step_start hp hb⟩
    | item v => exact .inr ⟨rfl, _, step_item_idle hp hb⟩
    | endFrame => exact .inr ⟨rfl, _, step_endFrame_idle hp hb⟩
    | reset => exact .inl ⟨rfl, _, step_reset hp⟩
  | true =>
    rw [State.openOp_of_busy hb]
    cases e with
    | start op => exact .inr ⟨rfl, _, step_start_busy hp hb⟩
    | item v =>
      have haccepts : (itemStepOf (decode s.opl) v (s.setPending rest)).isSome = (decode s.opl).accepts s.fmt v :=
        itemStepOf_isSome _ v _
      rw [eventsWf, eventsWf, Bool.and_true, ← haccepts]
      cases ht : itemStepOf (decode s.opl) v (s.setPending rest) with
      | none => exact .inr ⟨rfl, _, step_item_refused hp hb ht⟩
      | some t => exact .inl ⟨rfl, t, step_item hp hb ht⟩
    | endFrame => exact .inl ⟨rfl, _, step_endFrame hp hb⟩
    | reset => exact .inl ⟨rfl, _, step_reset hp⟩

end Allowed

/-- Settles O29: one of the two answers is given, by what R43 says of the event. -/
theorem refusesExactlyIllFormedEvents : Obligations.RefusesExactlyIllFormedEvents := by
  unfold Obligations.RefusesExactlyIllFormedEvents
  intro s e rest hp
  obtain ⟨hwf, t, ht⟩ | ⟨hwf, r, hr⟩ := step_by_eventsWf hp
  · simp [hwf, ht]
  · simp [hwf, hr]

/-! ## A whole sequence -/

/-- R43: the operation of the frame that is open after an allowed event. -/
def openAfter (o : Option Instr) : Event → Option Instr
  | .start op => some (decode op)
  | .item _ => o
  | .endFrame => none
  | .reset => none

/-- A sequence is well-formed when its first event is allowed and the others are in the frame that is open then. -/
theorem eventsWf_cons (fmt : Format) (o : Option Instr) (e : Event) (es : List Event) :
    eventsWf fmt o (e :: es) = (eventsWf fmt o [e] && eventsWf fmt (openAfter o e) es) := by
  cases o with
  | none => cases e <;> rfl
  | some i =>
    cases e with
    | item v => simp [eventsWf, openAfter]
    | start _ | endFrame | reset => rfl

theorem step_openOp {s t : State} {e : Event} {rest : List Event} (hp : s.pending = e :: rest)
    (h : step s = .next t) : t.openOp = openAfter s.openOp e := by
  have hbusy := busyMarksOpenFrame.2 s t e rest hp h
  have hopl := oplWrittenOnlyByStart s t e rest hp h
  cases e with
  | start op => rw [State.openOp_of_busy hbusy, hopl]; rfl
  | item v => rw [State.openOp, hbusy, hopl]; rfl
  | endFrame | reset => exact State.openOp_of_idle hbusy

/-- One event of a well-formed sequence: it has a step, and the rest is well-formed from the next state on. -/
theorem State.Served.step {s : State} {e : Event} {rest : List Event} (h : s.Served) (hp : s.pending = e :: rest) :
    ∃ t, step s = .next t ∧ t.pending = rest ∧ t.Served := by
  rw [State.Served, hp, eventsWf_cons, Bool.and_eq_true] at h
  obtain ⟨hfirst, hrest⟩ := h
  obtain ⟨t, ht⟩ := (refusesExactlyIllFormedEvents s e rest hp).2.mpr hfirst
  obtain ⟨⟨e', hconsumed⟩, hfmt, -⟩ := stepConsumesOneEvent s t ht
  obtain ⟨-, hpending⟩ := List.cons.inj (hp.symm.trans hconsumed)
  refine ⟨t, ht, hpending.symm, ?_⟩
  rw [State.Served, hfmt, step_openOp hp ht, ← hpending]
  exact hrest

/-- Settles O28, by induction on the number of steps. -/
theorem wellFormedEventsAreServed : Obligations.WellFormedEventsAreServed := by
  unfold Obligations.WellFormedEventsAreServed
  intro s k
  induction k generalizing s with
  | zero => exact fun hserved _ => ⟨s, rfl, rfl, hserved⟩
  | succ k ih =>
    intro hserved hk
    obtain ⟨e, rest, hp⟩ := List.exists_cons_of_length_pos (Nat.zero_lt_of_lt hk)
    obtain ⟨t, ht, rfl, htserved⟩ := hserved.step hp
    rw [runSteps_succ k ht, hp, List.drop_succ_cons]
    exact ih t htserved (by simpa [hp] using hk)

end Sys2Proof.Machine
end

section
/-! What reads `HOLD` (spec/10_state.md R26): only the second ITEM of a pair. Everywhere else a step from a state with
another bit in `HOLD` answers the same, up to `HOLD` itself. -/

namespace Sys2Proof.Machine

/-- Two results that differ at most in `HOLD`: next states of which the second is the first with some bit in `HOLD`,
or refusals for one reason. -/
inductive AgreeButHold : Result → Result → Prop where
  | next (t : State) (h : Bit) : AgreeButHold (.next t) (.next (t.setHold h))
  | refused (r : Refusal) : AgreeButHold (.refused r) (.refused r)

/-- A pair step at `PHASE = 0` overwrites `HOLD`. -/
theorem State.pairStep_setHold (output : Bit → Bit → List Item) (b h : Bit) {s : State} (hphase : s.phase = false) :
    (s.setHold h).pairStep output b = (s.pairStep output b).setHold b := by
  rw [State.pairStep_first output b hphase, State.pairStep_first output b (s := s.setHold h) hphase]
  rfl

/-- An ITEM step outside the second bit of a pair does not read `HOLD`. -/
theorem itemStepOf_setHold {i : Instr} {v : Item} {s : State} (h : Bit)
    (hfirst : i = .mdec ∨ i = .mapq → s.phase = false) :
    Option.Rel (fun t u => ∃ h', u = t.setHold h') (itemStepOf i v s) (itemStepOf i v (s.setHold h)) := by
  cases i with
  | mdec | mapq => exact optionRel_map _ fun b => ⟨b, State.pairStep_setHold _ b h (hfirst (by simp))⟩
  | menc | mapb | detb | detq | reserved _ => exact optionRel_map _ fun _ => ⟨h, rfl⟩

theorem statusOf_setHold (i : Instr) (h : Bit) (s : State) : statusOf i (s.setHold h) = statusOf i s := by
  cases i <;> rfl

/-- An ITEM in an open frame runs the ITEM step, or is of the wrong type where there is none. -/
theorem step_item_busy {s : State} {v : Item} {rest : List Event} (hp : s.pending = .item v :: rest)
    (hb : s.busy = true) :
    step s = (itemStepOf (decode s.opl) v (s.setPending rest)).elim (.refused .itemWrongType) .next := by
  cases ht : itemStepOf (decode s.opl) v (s.setPending rest) with
  | none => exact step_item_refused hp hb ht
  | some t => exact step_item hp hb ht

theorem AgreeButHold.of_optionRel {o o' : Option State} (r : Refusal)
    (h : Option.Rel (fun t u => ∃ h', u = t.setHold h') o o') :
    AgreeButHold (o.elim (.refused r) .next) (o'.elim (.refused r) .next) := by
  cases h with
  | none => exact .refused r
  | some hu =>
    obtain ⟨h', rfl⟩ := hu
    exact .next _ h'

/-- The event decides which of the rules on `step` applies, and none but that of an ITEM reads `HOLD`. -/
theorem step_setHold {s : State} (h : Bit)
    (hsecond : ¬ ∃ v rest, s.pending = .item v :: rest ∧ s.busy = true ∧ s.phase = true ∧
      (s.opl = 0b001#3 ∨ s.opl = 0b011#3)) :
    AgreeButHold (step s) (step (s.setHold h)) := by
  cases hp : s.pending with
  | nil => rw [step_noEvent hp, step_noEvent (s := s.setHold h) hp]; exact .refused _
  | cons e rest =>
    cases e with
    | start op =>
      cases hb : s.busy with
      | false => rw [step_start hp hb, step_start (s := s.setHold h) hp hb]; exact .next _ h
      | true => rw [step_start_busy hp hb, step_start_busy (s := s.setHold h) hp hb]; exact .refused _
    | item v =>
      cases hb : s.busy with
      | false => rw [step_item_idle hp hb, step_item_idle (s := s.setHold h) hp hb]; exact .refused _
      | true =>
        have hfirst (hpaired : decode s.opl = .mdec ∨ decode s.opl = .mapq) : (s.setPending rest).phase = false :=
          Bool.eq_false_iff.mpr fun hphase => hsecond ⟨v, rest, hp, hb, hphase, decode_eq_paired_iff.mp hpaired⟩
        rw [step_item_busy hp hb, step_item_busy (s := s.setHold h) hp hb]
        exact .of_optionRel _ (itemStepOf_setHold h hfirst)
    | endFrame =>
      cases hb : s.busy with
      | false => rw [step_endFrame_idle hp hb, step_endFrame_idle (s := s.setHold h) hp hb]; exact .refused _
      | true =>
        rw [step_endFrame hp hb, step_endFrame (s := s.setHold h) hp hb, State.setHold_opl, statusOf_setHold]
        exact .next _ h
    | reset =>
      rw [step_reset hp, step_reset (s := s.setHold h) hp]
      exact .next _ (Config.freeBit s.free)

/-- Settles O20: the two steps agree up to `HOLD`, so they refuse alike, and next states are made equal by the one
bit. -/
theorem holdReadOnlyAtSecondBit : Obligations.HoldReadOnlyAtSecondBit := by
  unfold Obligations.HoldReadOnlyAtSecondBit
  intro s h hsecond
  have hagree : AgreeButHold (step s) (step { s with hold := h }) := step_setHold h hsecond
  refine ⟨fun r hr => ?_, fun t ht => ?_⟩
  · rw [hr] at hagree
    generalize step { s with hold := h } = r₂ at hagree ⊢
    cases hagree
    rfl
  · rw [ht] at hagree
    generalize step { s with hold := h } = r₂ at hagree ⊢
    cases hagree
    exact ⟨_, rfl, rfl⟩

end Sys2Proof.Machine
end

section
/-! The next state of each event that an operation serves, whole (spec/20_memory.md R46). -/

namespace Sys2Proof.Machine

theorem exec_endFrame {i : Instr} {s : State} {rest : List Event} (hp : s.pending = .endFrame :: rest)
    (hb : s.busy = true) : exec i s = .next ((s.setPending rest).closeFrame (statusOf i s)) := by
  rw [exec_eq_runEvent]
  simp [runEvent, hp, hb]

/-- Settles O4: START is served by the operation its code selects, whose step is that of the machine. -/
theorem startLatchesOperation : Obligations.StartLatchesOperation := by
  unfold Obligations.StartLatchesOperation
  intro s op rest hb hp
  have hstep := step_start hp hb
  exact ⟨hstep, (step_eq_exec (State.selected_start hp hb)).symm.trans hstep⟩

/-- Settles O5: END closes the frame with the operation's status, which is R46's. -/
theorem endDeliversStatus : Obligations.EndDeliversStatus := by
  unfold Obligations.EndDeliversStatus
  intro i s rest hb hp
  rw [exec_endFrame hp hb, statusOf_eq_statusAtEnd]
  rfl

/-! ## The ITEM step of each operation -/

/-- Settles O6: the emitted items are the code word of the bit. -/
theorem mencItemStep : Obligations.MencItemStep := by
  unfold Obligations.MencItemStep
  intro s b rest hb hp
  exact exec_item_next hp hb rfl

section PairItem
variable {i : Instr} {output : Bit → Bit → List Item} {s : State} {b : Bit} {rest : List Event}

/-- The first bit of a group: it is held. -/
theorem exec_item_pair_first (hp : s.pending = .item (.bit b) :: rest) (hb : s.busy = true)
    (hitem : itemStepOf i (.bit b) (s.setPending rest) = some ((s.setPending rest).pairStep output b))
    (hphase : s.phase = false) : exec i s = .next (((s.setPending rest).setHold b).setPhase true) := by
  rw [exec_item_next hp hb hitem, State.pairStep_first output b (s := s.setPending rest) hphase]

/-- The second bit of a group: the group is emitted. -/
theorem exec_item_pair_second (hp : s.pending = .item (.bit b) :: rest) (hb : s.busy = true)
    (hitem : itemStepOf i (.bit b) (s.setPending rest) = some ((s.setPending rest).pairStep output b))
    (hphase : s.phase = true) :
    exec i s = .next (((s.setPending rest).emit (output s.hold b)).setPhase false) := by
  rw [exec_item_next hp hb hitem, State.pairStep_second output b (s := s.setPending rest) hphase, State.setPending_hold]

end PairItem

/-- Settles O7: `MDEC` assembles pairs, and of a complete one emits the held bit. -/
theorem mdecItemStep : Obligations.MdecItemStep := by
  unfold Obligations.MdecItemStep
  intro s b rest hb hp
  have hitem : itemStepOf .mdec (.bit b) (s.setPending rest) =
      some ((s.setPending rest).pairStep (fun first second => [.bit (decodeGroup first second)]) b) := rfl
  exact ⟨exec_item_pair_first hp hb hitem, exec_item_pair_second hp hb hitem⟩

/-- Settles O8: the emitted symbol is the BPSK point of the bit, whose amplitude is `2^F`. -/
theorem mapbItemStep : Obligations.MapbItemStep := by
  unfold Obligations.MapbItemStep
  intro s b rest hb hp
  rw [← one_eq_two_pow]
  exact exec_item_next hp hb rfl

/-- Settles O9: `MAPQ` assembles pairs, and of a complete one emits the QPSK point. -/
theorem mapqItemStep : Obligations.MapqItemStep := by
  unfold Obligations.MapqItemStep
  intro s b rest hb hp
  rw [← amp_eq_sgn_mul, ← amp_eq_sgn_mul]
  have hitem : itemStepOf .mapq (.bit b) (s.setPending rest) =
      some ((s.setPending rest).pairStep (fun c0 c1 => [.symbol (qpskPoint s.fmt c0 c1)]) b) := rfl
  exact ⟨exec_item_pair_first hp hb hitem, exec_item_pair_second hp hb hitem⟩

theorem Symbol.wf_mk {fmt : Format} {i q : Int} (hi : sampleInRange fmt.w i = true)
    (hq : sampleInRange fmt.w q = true) : (Symbol.mk i q).wf fmt = true := by
  rw [Symbol.wf, hi, hq, Bool.and_self]

/-- Settles O10: the symbol is of the format, so `DETB` takes it, and emits the decision on `I`. -/
theorem detbItemStep : Obligations.DetbItemStep := by
  unfold Obligations.DetbItemStep
  intro s i q rest hb hp hi hq
  refine exec_item_next hp hb ?_
  rw [itemStepOf, detbItem, State.setPending_fmt, takeSymbol_of_wf (Symbol.wf_mk hi hq)]
  rfl

/-- Settles O11: the symbol is of the format, so `DETQ` takes it, and emits the two decisions. -/
theorem detqItemStep : Obligations.DetqItemStep := by
  unfold Obligations.DetqItemStep
  intro s i q rest hb hp hi hq
  refine exec_item_next hp hb ?_
  rw [itemStepOf, detqItem, State.setPending_fmt, takeSymbol_of_wf (Symbol.wf_mk hi hq)]
  rfl

theorem itemStepOf_reserved {x : Item} {s : State} (v : Bit) (h : x.wf s.fmt = true) :
    itemStepOf (.reserved v) x s = some s := by
  simp [itemStepOf, reservedItem, takeAny, h]

/-- Settles O12: the item is taken and dropped. -/
theorem reservedItemStep : Obligations.ReservedItemStep := by
  unfold Obligations.ReservedItemStep
  intro v s x rest hb hp hx
  exact exec_item_next hp hb (itemStepOf_reserved v hx)

end Sys2Proof.Machine
end

section
/-! Runs of one frame and of two (spec/20_memory.md R42, R43), complete or cut short by RESET
(spec/70_reset_and_hazards.md R182). -/

namespace Sys2Proof.Machine

/-! ## An open pair -/

/-- An operation on pairs takes every bit. -/
theorem accepts_bit_of_paired {i : Instr} (hi : i = .mdec ∨ i = .mapq) (fmt : Format) (b : Bit) :
    i.accepts fmt (.bit b) = true := by
  obtain rfl | rfl := hi <;> rfl

/-- One bit more in a frame of an operation on pairs: `PHASE` toggles, and the bit is in `HOLD` when `PHASE` is 1. -/
theorem step_paired_bit {s : State} {b : Bit} {rest : List Event} (hb : s.busy = true)
    (hopl : decode s.opl = .mdec ∨ decode s.opl = .mapq) (hp : s.pending = .item (.bit b) :: rest) :
    ∃ t, step s = .next t ∧ t.busy = true ∧ t.opl = s.opl ∧ t.pending = rest ∧ t.phase = !s.phase ∧
      (t.phase = true → t.hold = b) := by
  have hsome : (itemStepOf (decode s.opl) (.bit b) (s.setPending rest)).isSome = true :=
    (itemStepOf_isSome _ _ _).trans (accepts_bit_of_paired hopl _ b)
  obtain ⟨t, hitem⟩ := Option.isSome_iff_exists.mp hsome
  obtain ⟨-, hbusy, hlatched, hpending, -, -⟩ := itemStepOf_frame hitem
  have hphase : t.phase = !s.phase := by simpa [hopl] using itemStepOf_phase hitem
  refine ⟨t, step_item hp hb hitem, hbusy.trans hb, hlatched, hpending, hphase, fun ht => ?_⟩
  have hfirst : s.phase = false := by simpa [ht] using hphase
  have hhold := itemStepOf_hold hitem
  rw [if_pos ⟨hopl, hfirst⟩] at hhold
  exact (Item.bit.inj hhold).symm

/-- Settles O27, by induction on the items, the last one split off. -/
theorem phaseCountsItems : Obligations.PhaseCountsItems := by
  unfold Obligations.PhaseCountsItems
  intro s op x rest hop hidle hp
  induction x using List.reverseRecOn generalizing rest with
  | nil => exact ⟨_, runSteps_succ 0 (step_start hp hidle), rfl, rfl, rfl, rfl, by simp⟩
  | append_singleton x b ih =>
    obtain ⟨t, hrun, hbusy, rfl, hpending, hphase, -⟩ := ih (.item (.bit b) :: rest) (by simpa [bitFrame] using hp)
    obtain ⟨u, hstep, hubusy, huopl, hupending, huphase, huhold⟩ := step_paired_bit hbusy hop hpending
    refine ⟨u, ?_, hubusy, huopl, hupending, ?_, fun hu => by simp [huhold hu]⟩
    · rw [List.length_append, Nat.add_right_comm, List.length_singleton, runSteps_add _ 1 hrun]
      exact runSteps_succ 0 hstep
    · rw [huphase, hphase, List.length_append, List.length_singleton, ← decide_not]
      exact decide_eq_decide.mpr (by omega)

/-! ## A frame that ends, and one that RESET cuts short -/

/-- O30 for one frame that END closes: its report is the delivery of its meaning. -/
theorem runSteps_frame_deliveredAs {s : State} {op : BitVec 3} {x : List Item} {rest : List Event}
    (hb : s.busy = false) (hx : (decode op).acceptsFrame s.fmt x = true) (hp : s.pending = frameEvents op x ++ rest) :
    ∃ t y st res, runSteps (x.length + 2) s = .next t ∧ t.fmt = s.fmt ∧ t.busy = false ∧ t.pending = rest ∧
      t.reports = s.reports ++ [⟨y, some st⟩] ∧ execFrame s.fmt (decode op) x = some res ∧
      res.DeliveredAs s.fmt (decode op) x y st := by
  obtain ⟨u, res, hrun, hexec, hdelivered⟩ :=
    deliversFrame_of_accepts (i := decode op) (s := s.openFrame op) rfl rfl hx
  obtain ⟨hfmt, -, -, hreports⟩ := itemRun_frame hrun
  exact ⟨_, u.out, _, res, runSteps_frame hb hp hrun, hfmt, rfl, rfl, by simp [hreports], hexec, hdelivered⟩

/-- The meaning of a frame determines the items and the status delivered of it. -/
theorem FrameResult.DeliveredAs.unique {fmt : Format} {i : Instr} {x y y' : List Item} {st st' : Status}
    {res : FrameResult} (h : res.DeliveredAs fmt i x y st) (h' : res.DeliveredAs fmt i x y' st') :
    y = y' ∧ st = st' := by
  match res with
  | .ok _ | .fault .illegalOp =>
    obtain ⟨rfl, rfl⟩ := h
    obtain ⟨rfl, rfl⟩ := h'
    exact ⟨rfl, rfl⟩
  | .fault .invalidBitLength =>
    obtain ⟨rfl, hgroups⟩ := h
    obtain ⟨rfl, hgroups'⟩ := h'
    exact ⟨FrameResult.ok.inj (Option.some.inj (hgroups.symm.trans hgroups')), rfl⟩

/-- Settles O32: both frames have the same meaning, which determines what is delivered of them. -/
theorem sameFrameSameReport : Obligations.SameFrameSameReport := by
  unfold Obligations.SameFrameSameReport
  intro s op x rest hb hx hp
  obtain ⟨t, y, st, res, hrun, hfmt, htb, htp, hreports, hexec, hdelivered⟩ := runSteps_frame_deliveredAs hb hx hp
  obtain ⟨u, y', st', res', hrun', -, hub, hup, hreports', hexec', hdelivered'⟩ :=
    runSteps_frame_deliveredAs htb (hfmt ▸ hx) htp
  rw [hfmt] at hexec' hdelivered'
  obtain rfl : res = res' := Option.some.inj (hexec.symm.trans hexec')
  obtain ⟨rfl, rfl⟩ := hdelivered.unique hdelivered'
  refine ⟨u, ⟨y, some st⟩, ?_, by simp [hreports', hreports], hub, hup⟩
  rw [two_mul, runSteps_add _ _ hrun, hrun']

/-- START and the ITEM steps of a frame that is still open. -/
theorem runSteps_start_items {s u : State} {op : BitVec 3} {x : List Item} {rest : List Event} (hb : s.busy = false)
    (hp : s.pending = .start op :: (x.map .item ++ rest)) (h : itemRun (decode op) x (s.openFrame op) = some u) :
    runSteps (x.length + 1) s = .next (u.setPending rest) := by
  rw [runSteps_succ _ (step_start hp hb)]
  exact runSteps_items (s := s.openFrame op) rest rfl h

/-- Settles O33: RESET closes the open frame with a report that has no status. -/
theorem resetAbandonsOpenFrame : Obligations.ResetAbandonsOpenFrame := by
  unfold Obligations.ResetAbandonsOpenFrame
  intro s op x rest hb hx hp
  obtain ⟨u, -, hrun, -, -⟩ := deliversFrame_of_accepts (i := decode op) (s := s.openFrame op) rfl rfl hx
  obtain ⟨-, hbusy, -, hreports⟩ := itemRun_frame hrun
  have hbusy : (u.setPending rest).busy = true := hbusy
  have hstatuses : (u.setPending rest).resetBlock.statuses = s.statuses :=
    (State.resetBlock_statuses _).trans (State.statuses_congr hreports)
  refine ⟨(u.setPending rest).resetBlock, ⟨u.out, none⟩, ?_, hstatuses, ?_, rfl, rfl, rfl, rfl⟩
  · rw [runSteps_add _ 1 (runSteps_start_items hb hp hrun)]
    exact runSteps_succ 0 (step_reset rfl)
  · rw [State.resetBlock_reports, if_pos hbusy, State.setPending_reports, hreports]
    rfl

end Sys2Proof.Machine
end

section
/-! The meaning of a whole frame of each operation, item by item (spec/40_manchester.md R80, R81, spec/41_mapper.md R90,
R91, spec/42_detector.md R100, R101), and the energy of the points it maps to (R94). -/

namespace Sys2Proof.Machine

/-! ## The Manchester unit -/

/-- A code word has one sub-bit of each value. -/
theorem count_codeWord (a b : Bit) : (codeWord b).count a = 1 := by
  cases a <;> cases b <;> rfl

theorem count_flatMap_codeWord (a : Bit) (x : List Bit) : (x.flatMap codeWord).count a = x.length := by
  induction x with
  | nil => rfl
  | cons b x ih => rw [List.flatMap_cons, List.count_append, count_codeWord, ih, List.length_cons, Nat.add_comm]

/-- Settles O35: the encoded frame is the code words of `x`. -/
theorem mencFrameMeaning : Obligations.MencFrameMeaning := by
  unfold Obligations.MencFrameMeaning
  intro fmt x
  refine ⟨x.flatMap codeWord, execFrame_menc_bitFrame fmt x, length_flatMap_pair id (fun b => !b) x, fun i b hb => ?_,
    count_flatMap_codeWord true x, count_flatMap_codeWord false x⟩
  have hpair := getElem?_flatMap_pair id (fun b => !b) x i
  rwa [hb] at hpair

/-- Settles O36: MDEC keeps the bits at even index, and has no result where one has no partner. -/
theorem mdecFrameMeaning : Obligations.MdecFrameMeaning := by
  unfold Obligations.MdecFrameMeaning
  intro fmt coded
  refine ⟨execFrame_mdec_of_odd fmt, fun heven => ?_⟩
  obtain ⟨y, hdec, hlen, hget⟩ := exists_mdecFrame_of_even heven
  refine ⟨y, ?_, hlen, fun i _ => hget i⟩
  rw [execFrame_mdec_bitFrame, hdec, Option.map_some, pairedResult]

/-! ## The mapper -/

/-- Settles O37: the symbols are the BPSK points of the bits, whose amplitude is `2^F`. -/
theorem mapbFrameMeaning : Obligations.MapbFrameMeaning := by
  unfold Obligations.MapbFrameMeaning
  intro fmt coded
  refine ⟨mapbFrame fmt coded, execFrame_mapb_bitFrame fmt coded, List.length_map _, fun i b hb => ?_⟩
  rw [mapbFrame, List.getElem?_map, hb, Option.map_some, ← one_eq_two_pow]
  rfl

theorem execFrame_mapq_of_odd (fmt : Format) {c : List Bit} (h : c.length % 2 = 1) :
    execFrame fmt .mapq (bitFrame c) = some (.fault .invalidBitLength) := by
  rw [execFrame_mapq_bitFrame, mapqFrame_eq_pairedFrame, pairedFrame, if_neg (by omega), pairedResult]

/-- R91 on an even frame: the points of the pairs, in order. -/
theorem exists_mapqFrame_of_even (fmt : Format) {d : List Bit} (h : d.length % 2 = 0) :
    ∃ s, mapqFrame fmt d = some s ∧ s.length = d.length / 2 ∧
      ∀ (i : Nat) (a b : Bit), d[2 * i]? = some a → d[2 * i + 1]? = some b → s[i]? = some (qpskPoint fmt a b) := by
  induction d using mapqFrame.induct with
  | case1 => exact ⟨[], rfl, rfl, by simp⟩
  | case2 a => simp at h
  | case3 c0 c1 d ih =>
    obtain ⟨s, hmap, hlen, hget⟩ := ih (by simpa [Nat.add_assoc] using h)
    refine ⟨qpskPoint fmt c0 c1 :: s, by rw [mapqFrame, hmap, Option.map_some], by simp [hlen, Nat.add_assoc],
      fun i a b ha hb => ?_⟩
    cases i with
    | zero =>
      obtain rfl : c0 = a := Option.some.inj ha
      obtain rfl : c1 = b := Option.some.inj hb
      rfl
    | succ i => exact hget i a b ha hb

/-- Settles O38: the symbols are the QPSK points of the pairs, and a bit without a partner has none. -/
theorem mapqFrameMeaning : Obligations.MapqFrameMeaning := by
  unfold Obligations.MapqFrameMeaning
  intro fmt coded
  refine ⟨execFrame_mapq_of_odd fmt, fun heven => ?_⟩
  obtain ⟨s, hmap, hlen, hget⟩ := exists_mapqFrame_of_even fmt heven
  refine ⟨s, ?_, hlen, hget⟩
  rw [execFrame_mapq_bitFrame, hmap, Option.map_some, pairedResult]

/-! ## The detector -/

/-- Settles O39: the bits are the decisions on the `I` of the symbols. -/
theorem detbFrameMeaning : Obligations.DetbFrameMeaning := by
  unfold Obligations.DetbFrameMeaning
  intro fmt r hwf
  refine ⟨detbFrame r, execFrame_detb_symbolFrame hwf, detbFrame_length r, fun i p hp => ?_⟩
  rw [detbFrame, List.getElem?_map, hp]
  rfl

/-- Settles O40: the bits are the decisions on the symbols, two of each. -/
theorem detqFrameMeaning : Obligations.DetqFrameMeaning := by
  unfold Obligations.DetqFrameMeaning
  intro fmt r hwf
  have hdet : detqFrame r = r.flatMap fun p => [ge0 p.i, ge0 p.q] := detqFrame_eq_flatMap r
  refine ⟨detqFrame r, execFrame_detq_symbolFrame hwf, by rw [hdet, length_flatMap_pair], fun i p hp => ?_⟩
  have hpair := getElem?_flatMap_pair (fun p => ge0 p.i) (fun p => ge0 p.q) r i
  rwa [hp, ← hdet] at hpair

/-! ## The energy of a point -/

theorem amp_sq (c : Bit) (a : Int) : amp c a ^ 2 = a ^ 2 := by
  rw [← sq_abs, abs_amp, sq_abs]

/-- R94 in the integers: R93's inequalities, with `2^(2F+1)` read as `2*ONE^2`. -/
theorem abs_two_mul_aq_sq_sub_le (fmt : Format) : |2 * aq fmt ^ 2 - one fmt ^ 2| ≤ 2 * aq fmt := by
  obtain ⟨hlower, hupper⟩ := aq_bounds fmt
  have hone : (2 : Int) ^ (2 * fmt.f + 1) = 2 * one fmt ^ 2 := by
    rw [one_eq_two_pow, pow_succ', mul_comm 2 fmt.f, pow_mul]
  rw [hone] at hlower hupper
  exact abs_le.mpr ⟨by linarith, by linarith⟩

/-- Settles O45: the sign of an amplitude does not bear on its square. -/
theorem symbolEnergy : Obligations.SymbolEnergy := by
  unfold Obligations.SymbolEnergy
  intro fmt
  refine ⟨fun c => ?_, fun c0 c1 => ?_, abs_two_mul_aq_sq_sub_le fmt⟩
  · rw [bpskPoint, amp_sq, zero_pow two_ne_zero, add_zero]
  · rw [qpskPoint, amp_sq, amp_sq, two_mul]

end Sys2Proof.Machine
end

section
/-! The words of samples, symbols and commands (spec/00_scope.md R7, spec/20_memory.md R49, spec/30_encoding.md R60,
R70). -/

namespace Sys2Proof.Machine

/-- Unpacking reads the two words back as they were packed, at every width. -/
theorem unpackSymbol_packSymbol (w : Nat) (p : Symbol) :
    unpackSymbol w (packSymbol w p) = ⟨wordSample (sampleWord w p.i), wordSample (sampleWord w p.q)⟩ := by
  rw [unpackSymbol, packSymbol, BitVec.extractLsb'_append_eq_left, BitVec.extractLsb'_append_eq_right]

section SampleWord
variable {w : Nat} {s : Int} (hw : 1 ≤ w) (h : sampleInRange w s = true)
include hw h

theorem ge0_eq_not_msb : ge0 s = !(sampleWord w s).msb := by
  rw [BitVec.msb_eq_toInt, ← wordSample, wordSample_sampleWord hw h, ge0, ← decide_not]
  exact decide_eq_decide.mpr not_lt.symm

theorem widenSample_sampleWord (n : Nat) : widenSample n (sampleWord w s) = sampleWord n s := by
  rw [widenSample, BitVec.signExtend, ← wordSample, wordSample_sampleWord hw h, sampleWord]

end SampleWord

/-- Settles O52: each clause follows from reading the word of a sample back. -/
theorem sampleWordsAndPackedSymbols : Obligations.SampleWordsAndPackedSymbols := by
  unfold Obligations.SampleWordsAndPackedSymbols
  constructor
  · intro w s hw h
    exact ⟨wordSample_sampleWord hw h, ge0_eq_not_msb hw h, fun n _ => widenSample_sampleWord hw h n⟩
  · intro fmt p hwf
    obtain ⟨hw, -, -⟩ := Format.bounds fmt
    obtain ⟨hi, hq⟩ : sampleInRange fmt.w p.i = true ∧ sampleInRange fmt.w p.q = true := by simpa [Symbol.wf] using hwf
    rw [unpackSymbol_packSymbol, wordSample_sampleWord (by omega) hi, wordSample_sampleWord (by omega) hq]

/-- The byte of a command has no bit above bit 2 set, and its low bits are the code (log 10). -/
theorem decodeBytes_encodeBytes_append (i : Instr) (rest : List (BitVec 8)) :
    decodeBytes (encodeBytes i ++ rest) = .ok (i, rest) := by
  have hbyte : ((encode i).setWidth 8).toNat < 8 := by
    rw [BitVec.toNat_setWidth_of_le (by decide)]
    exact (encode i).isLt
  rw [encodeBytes, List.singleton_append, decodeBytes, if_pos hbyte, BitVec.setWidth_setWidth_of_le _ (by decide),
    BitVec.setWidth_eq, decode_encode]

/-- Settles O2: both directions on the codes, and the byte framing keeps the code. -/
theorem decodeInvertsEncode : Obligations.DecodeInvertsEncode := by
  unfold Obligations.DecodeInvertsEncode
  exact ⟨decode_encode, encode_decode, decodeBytes_encodeBytes_append⟩

end Sys2Proof.Machine
end

section
/-! Frames put together from two (spec/43_chains.md R118). -/

namespace Sys2Proof.Machine

/-! ## Reading a frame of two parts -/

theorem bitsOf_append {x y : List Item} {c d : List Bit} (hx : bitsOf x = some c) (hy : bitsOf y = some d) :
    bitsOf (x ++ y) = some (c ++ d) := by
  obtain rfl := bitsOf_eq_some.mp hx
  obtain rfl := bitsOf_eq_some.mp hy
  exact bitsOf_eq_some.mpr List.map_append.symm

theorem symbolsOf_append {fmt : Format} {x y : List Item} {r q : List Symbol} (hx : symbolsOf fmt x = some r)
    (hy : symbolsOf fmt y = some q) : symbolsOf fmt (x ++ y) = some (r ++ q) := by
  obtain ⟨rfl, hr⟩ := symbolsOf_eq_some.mp hx
  obtain ⟨rfl, hq⟩ := symbolsOf_eq_some.mp hy
  refine symbolsOf_eq_some.mpr ⟨List.map_append.symm, fun p hp => ?_⟩
  exact (List.mem_append.mp hp).elim (hr p) (hq p)

/-- A meaning that joins two results joins them on the frames they are read from. -/
theorem map_read_append {α : Type} {read : List Item → Option (List α)} {meaning : List α → FrameResult}
    {u v a b : List Item}
    (hread : ∀ {x y c d}, read x = some c → read y = some d → read (x ++ y) = some (c ++ d))
    (hmeaning : ∀ {c d}, meaning c = .ok a → meaning d = .ok b → meaning (c ++ d) = .ok (a ++ b))
    (hu : (read u).map meaning = some (.ok a)) (hv : (read v).map meaning = some (.ok b)) :
    (read (u ++ v)).map meaning = some (.ok (a ++ b)) := by
  obtain ⟨c, hc, ha⟩ := Option.map_eq_some_iff.mp hu
  obtain ⟨d, hd, hb⟩ := Option.map_eq_some_iff.mp hv
  rw [hread hc hd, Option.map_some, hmeaning ha hb]

/-! ## Joining the output of two parts -/

/-- An operation that emits on each item alone never faults, and its output is joined as its input is. -/
theorem ok_append {α β : Type} {item : β → Item} {output : List α → List β} {c d : List α} {a b : List Item}
    (happend : output (c ++ d) = output c ++ output d) (ha : FrameResult.ok ((output c).map item) = .ok a)
    (hb : FrameResult.ok ((output d).map item) = .ok b) :
    FrameResult.ok ((output (c ++ d)).map item) = .ok (a ++ b) := by
  rw [happend, List.map_append, FrameResult.ok.inj ha, FrameResult.ok.inj hb]

theorem mencFrame_append (c d : List Bit) : mencFrame (c ++ d) = mencFrame c ++ mencFrame d := by
  simp only [mencFrame_eq_flatMap, List.flatMap_append]

theorem detqFrame_append (r q : List Symbol) : detqFrame (r ++ q) = detqFrame r ++ detqFrame q := by
  simp only [detqFrame_eq_flatMap, List.flatMap_append]

theorem pairOutputs_append (output : Bit → Bit → List Item) {c : List Bit} (d : List Bit) (h : c.length % 2 = 0) :
    pairOutputs output (c ++ d) = pairOutputs output c ++ pairOutputs output d := by
  induction c using pairOutputs.induct with
  | case1 => rfl
  | case2 a => simp at h
  | case3 a b c ih =>
    have hc : c.length % 2 = 0 := by simpa [Nat.add_assoc] using h
    simp only [List.cons_append, pairOutputs, ih hc, List.append_assoc]

theorem pairedResult_pairedFrame_eq_ok {output : Bit → Bit → List Item} {c : List Bit} {a : List Item} :
    pairedResult (pairedFrame output c) = .ok a ↔ c.length % 2 = 0 ∧ pairOutputs output c = a := by
  rw [pairedResult_eq_ok, pairedFrame, Option.ite_none_right_eq_some, Option.some_inj]

/-- An operation on pairs has a result on even parts only, so the groups of the whole are those of the parts. -/
theorem pairedResult_append {output : Bit → Bit → List Item} {frame : List Bit → Option (List Item)}
    (hframe : ∀ c, frame c = pairedFrame output c) {c d : List Bit} {a b : List Item}
    (ha : pairedResult (frame c) = .ok a) (hb : pairedResult (frame d) = .ok b) :
    pairedResult (frame (c ++ d)) = .ok (a ++ b) := by
  rw [hframe, pairedResult_pairedFrame_eq_ok] at *
  obtain ⟨hc, rfl⟩ := ha
  obtain ⟨hd, rfl⟩ := hb
  refine ⟨?_, pairOutputs_append output d hc⟩
  rw [List.length_append]
  omega

/-- R118, by the command. Of the premises only the results are needed: a part that is not a multiple of the group size
has none. -/
theorem execFrame_append {fmt : Format} {i : Instr} {u v a b : List Item} (hu : execFrame fmt i u = some (.ok a))
    (hv : execFrame fmt i v = some (.ok b)) : execFrame fmt i (u ++ v) = some (.ok (a ++ b)) := by
  cases i with
  | menc => exact map_read_append bitsOf_append (ok_append (mencFrame_append _ _)) hu hv
  | mapb => exact map_read_append bitsOf_append (ok_append (output := mapbFrame fmt) List.map_append) hu hv
  | mdec => exact map_read_append bitsOf_append (pairedResult_append mdecFrame_eq_pairedFrame) hu hv
  | mapq => exact map_read_append bitsOf_append (pairedResult_append (mapqFrame_eq_pairedFrame fmt)) hu hv
  | detb => exact map_read_append symbolsOf_append (ok_append (output := detbFrame) List.map_append) hu hv
  | detq => exact map_read_append symbolsOf_append (ok_append (detqFrame_append _ _)) hu hv
  | reserved _ => simp [execFrame] at hu

/-- Settles O59: results are joined as the parts are, and an odd frame of an operation on pairs has none. -/
theorem framesCutAtGroupBoundaries : Obligations.FramesCutAtGroupBoundaries := by
  unfold Obligations.FramesCutAtGroupBoundaries
  refine ⟨fun fmt i u v a b _ hu hv => execFrame_append hu hv, fun fmt i u hi hodd => ?_⟩
  obtain rfl | rfl := hi
  · exact execFrame_mdec_of_odd fmt hodd
  · exact execFrame_mapq_of_odd fmt hodd

end Sys2Proof.Machine
end
